-- ==== Sys2Proof/Word.lean ====
section
/-! DEFINITION. The word types of the block: the widths of rules R6, R15 to R19 and R70. -/

namespace Sys2Proof

/-- A symbol: 8 bits, an element of `W` (rule R6, `SYMBOL_BITS = 8`). -/
abbrev Byte := BitVec 8

/-- A 64-bit unsigned quantity: `START`, `DLEN`, a count, `CFG_WCAP` (rules R22, R23, R34, R37). -/
abbrev Long := BitVec 64

/-- A 9-bit node index or node count: `ROOT`, `ATOP`, a child of an internal node, `CFG_ACAP` (rules R19, R24, R25). -/
abbrev NodeIx := BitVec 9

/-- A bit sequence, the first bit first (rule R11): `false` is the bit 0, a turn to the left, and `true` the bit 1, a turn
to the right (rule R161). The path of a code entry, and the logical bit sequence of the bit codec, have this type. -/
abbrev Bits := List Bool

end Sys2Proof
end

