-- ==== Sys2Proof/HostAction.lean ====
section
/-! DEFINITION. What the host sends to the block and what the block answers: the host actions of 45_system_and_host.md and
their replies. Data only; their effect is Machine/HostPort.lean. -/

namespace Sys2Proof

/-- A host action (rules R192 to R202, syntax of rule R96), or the platform's reset input (rule R260). -/
inductive HostAction where
  /-- `issue(word)`: write `word` to `CMD` (rule R192). Any 8-bit word may be issued (rule R204). -/
  | issue (word : Byte)
  /-- `put_W(bytes)` (rule R195). -/
  | putW (bytes : List Byte)
  /-- `put_COUNT(s, c)` (rule R196). A count is written as a number, so that one out of range can be sent and refused (rule R204). -/
  | putCount (sym : Byte) (c : Nat)
  /-- `put_START(v)` (rules R197, R204). -/
  | putStart (v : Nat)
  /-- `put_DLEN(v)` (rules R198, R204). -/
  | putDlen (v : Nat)
  /-- `get_W()` (rule R194). -/
  | getW
  /-- `get_WLEN()`, of a platform that moves one byte per transfer (rule R194). -/
  | getWlen
  /-- `get_W_byte(i)`, of a platform that moves one byte per transfer (rule R194). -/
  | getWByte (i : Nat)
  /-- `get_COUNT(s)` (rule R196). -/
  | getCount (sym : Byte)
  /-- `get_START()` (rule R197). -/
  | getStart
  /-- `get_DLEN()` (rule R198). -/
  | getDlen
  /-- `get_STATUS()` (rule R199). -/
  | getStatus
  /-- `get_NODE(i)` (rule R200). -/
  | getNode (i : Nat)
  /-- `get_ROOT()` (rule R200). -/
  | getRoot
  /-- `get_ATOP()` (rule R200). -/
  | getAtop
  /-- `get_CODE(s)` (rule R201). -/
  | getCode (sym : Byte)
  /-- `get_FLAGS()` (rule R202). -/
  | getFlags
  /-- `get_CFG()` (rule R202). -/
  | getCfg
  /-- The hardware reset input of the platform: at any time, also during a command (rules R260, R263). -/
  | hardwareReset
  deriving DecidableEq, Repr

/-- What the block returns for one host action (rules R192 to R202). A `put` that is accepted returns nothing (rule R204). -/
inductive Reply where
  /-- The response of `issue`: the new `STATUS` (rule R192). -/
  | completed (status : Byte)
  /-- `get_W`. -/
  | bytes (b : List Byte)
  /-- `get_W_byte`, `get_STATUS` and `get_FLAGS`: an 8-bit number. -/
  | byte (b : Byte)
  /-- `get_WLEN`, `get_COUNT`, `get_START` and `get_DLEN`: a 64-bit number (rule R70). -/
  | long (v : Long)
  /-- `get_ROOT` and `get_ATOP`: a 9-bit number (rule R70). -/
  | index (v : NodeIx)
  /-- `get_NODE`: the 32-bit record of rule R92. -/
  | node (record : BitVec 32)
  /-- `get_CODE`: the pair of rule R93. -/
  | code (len : Byte) (value : BitVec 255)
  /-- `get_CFG`: the two capacities (rule R202). -/
  | cfg (wcap : Long) (acap : NodeIx)
  /-- The action was refused: it has no effect at all and the host is told so (rules R195, R200, R204). -/
  | refused
  deriving DecidableEq, Repr

end Sys2Proof
end

