-- ==== Sys2Proof/Syntax.lean ====
section
/-! DEFINITION. The commands of the block: one constructor per row of the command table (rule R85). -/

namespace Sys2Proof

/-- The nine commands, "the block's instruction" (rule R85). A command has no operands, no immediates and no register or
address fields (rule R84). -/
inductive Instr where
  /-- SYS.RST, word `0x00`: every piece of architectural state to its reset value (rule R190). -/
  | sysRst
  /-- BWT.FWD, word `0x10`: the forward transform (rule R104). -/
  | bwtFwd
  /-- BWT.INV, word `0x11`: the reverse transform (rule R108). -/
  | bwtInv
  /-- MTF.ENC, word `0x20` (rule R122). -/
  | mtfEnc
  /-- MTF.DEC, word `0x21` (rule R123). -/
  | mtfDec
  /-- HUF.BUILD, word `0x30`: the tree from the frequency table (rule R142). -/
  | hufBuild
  /-- HUF.GEN, word `0x31`: the code table from the tree (rule R160). -/
  | hufGen
  /-- BIT.PACK, word `0x40` (rule R170). -/
  | bitPack
  /-- BIT.UNPACK, word `0x41` (rule R180). -/
  | bitUnpack
  deriving DecidableEq, Repr

end Sys2Proof
end

