-- ==== Sys2Proof/WellFormed.lean ====
section
/-! DEFINITION. Well-formedness of what is sent to the block. A command has no operand, so every command is well formed; the
arguments of a host action have ranges, outside of which the port refuses the action (rules R63, R195, R200, R204). -/

namespace Sys2Proof

/-- Every command is well formed: a command carries no index, length or other field (rules R63, R84). -/
def Instr.WellFormed (i : Instr) : Bool :=
  match i with
  | .sysRst => true
  | .bwtFwd => true
  | .bwtInv => true
  | .mtfEnc => true
  | .mtfDec => true
  | .hufBuild => true
  | .hufGen => true
  | .bitPack => true
  | .bitUnpack => true

/-- The ranges of the arguments of a host action, on a block with capacities `wcap` and `acap` that holds `wlen` bytes:
`put_W` of at most `WCAP` bytes (rule R195), `get_W_byte(i)` with `i < WLEN` (rule R194), `get_NODE(i)` with `i < ACAP`
(rule R200), and counts, `START` and `DLEN` below 2^64 (rules R196 to R198): "out-of-range writes are refused, not assumed away" (rule
R204). A symbol index and a command word have exactly the width of their range (rules R196, R204). -/
def HostAction.WellFormed (wcap acap wlen : Nat) (a : HostAction) : Bool :=
  match a with
  | .putW bytes => decide (bytes.length ≤ wcap)
  | .putCount _ c => decide (c < 2 ^ 64)
  | .putStart v => decide (v < 2 ^ 64)
  | .putDlen v => decide (v < 2 ^ 64)
  | .getWByte i => decide (i < wlen)
  | .getNode i => decide (i < acap)
  | .issue _ => true
  | .getW => true
  | .getWlen => true
  | .getCount _ => true
  | .getStart => true
  | .getDlen => true
  | .getStatus => true
  | .getRoot => true
  | .getAtop => true
  | .getCode _ => true
  | .getFlags => true
  | .getCfg => true
  | .hardwareReset => true

end Sys2Proof
end

