-- ==== Sys2Proof/Decode.lean ====
section
/-! DEFINITION. Decoding a command word (30_encoding.md R80 to R87), and after it the encoder. -/

namespace Sys2Proof

/-- Why a word is no command (rules R81, R82, R86). -/
inductive DecodeError where
  /-- There is no word to decode. -/
  | noWord
  /-- Units 5 to 15 do not exist (rule R81). -/
  | noSuchUnit (unit : BitVec 4)
  /-- The unit exists and the function number is reserved (rule R82). -/
  | reservedFn (unit fn : BitVec 4)
  deriving DecidableEq, Repr

/-- One row of the command table: a word `w` selects the row when `w AND mask = match` (30_encoding.md, its opening). -/
structure OpRow where
  mask : Byte
  pattern : Byte
  instr : Instr
  deriving DecidableEq, Repr

/-- `CMD[7:4]`, the unit (rule R80). -/
def unitOf (w : Byte) : BitVec 4 := w.extractLsb' 4 4

/-- `CMD[3:0]`, the function (rule R80). -/
def fnOf (w : Byte) : BitVec 4 := w.extractLsb' 0 4

/-- The command table of rule R85; the mask of every row is `0xFF` (rule R83). -/
def opTable : List OpRow :=
  [ ⟨0xFF#8, 0x00#8, .sysRst⟩,
    ⟨0xFF#8, 0x10#8, .bwtFwd⟩,
    ⟨0xFF#8, 0x11#8, .bwtInv⟩,
    ⟨0xFF#8, 0x20#8, .mtfEnc⟩,
    ⟨0xFF#8, 0x21#8, .mtfDec⟩,
    ⟨0xFF#8, 0x30#8, .hufBuild⟩,
    ⟨0xFF#8, 0x31#8, .hufGen⟩,
    ⟨0xFF#8, 0x40#8, .bitPack⟩,
    ⟨0xFF#8, 0x41#8, .bitUnpack⟩ ]

/-- The row of the table that a word selects. -/
def selectRow (w : Byte) : List OpRow → Option OpRow
  | [] => none
  | r :: rs => if w &&& r.mask = r.pattern then some r else selectRow w rs

/-- Why a word that selects no row is illegal: its unit does not exist, or its function is reserved (rules R81, R82). -/
def illegalReason (w : Byte) : DecodeError :=
  if unitOf w ≤ 4#4 then .reservedFn (unitOf w) (fnOf w) else .noSuchUnit (unitOf w)

/-- Decode the command word in `CMD`: every word is one of the nine commands or illegal (rules R83, R86, R87). -/
def decodeWord (w : Byte) : Except DecodeError Instr :=
  match selectRow w opTable with
  | some r => .ok r.instr
  | none => .error (illegalReason w)

/-- Decode a list of words: every command is one word long (rule R80), and the rest of the list is left. -/
def decode (words : List Byte) : Except DecodeError (Instr × List Byte) :=
  match words with
  | [] => .error .noWord
  | w :: rest =>
    match decodeWord w with
    | .ok i => .ok (i, rest)
    | .error e => .error e

/-- The unit number of a command (rule R85). -/
def Instr.unit (i : Instr) : BitVec 4 :=
  match i with
  | .sysRst => 0
  | .bwtFwd => 1
  | .bwtInv => 1
  | .mtfEnc => 2
  | .mtfDec => 2
  | .hufBuild => 3
  | .hufGen => 3
  | .bitPack => 4
  | .bitUnpack => 4

/-- The function number of a command: 0 in the compress direction and 1 in the other, 0 builds and 1 generates, 0 resets
(rule R82). -/
def Instr.fn (i : Instr) : BitVec 4 :=
  match i with
  | .sysRst => 0
  | .bwtFwd => 0
  | .bwtInv => 1
  | .mtfEnc => 0
  | .mtfDec => 1
  | .hufBuild => 0
  | .hufGen => 1
  | .bitPack => 0
  | .bitUnpack => 1

/-- The word of a command, put together from its fields: `CMD[7:4] = unit`, `CMD[3:0] = fn` (rule R80). -/
def encodeWord (i : Instr) : Byte := i.unit ++ i.fn

/-- The words of a command: one word (rule R80). -/
def encode (i : Instr) : List Byte := [encodeWord i]

/-- The bytes of an instruction numbered as the opcode table numbers its bits, the first byte first: there is one word of one
byte. -/
def tableBytes (n w : Nat) : List Byte :=
  match n with
  | 0 => []
  | k + 1 => BitVec.ofNat 8 w :: tableBytes k (w / 256)

/-- The command the decoder reads from an instruction whose bits are `w`, numbered as the opcode table numbers them: the word
is bits 7..0, and `nbits` is 8 for every row. -/
def decodeTableWord (nbits w : Nat) : Option Instr :=
  match decode (tableBytes (nbits / 8) w) with
  | .ok (i, []) => some i
  | .ok (_, _ :: _) => none
  | .error _ => none

end Sys2Proof
end

