-- ==== Sys2Proof/Config.lean ====
section
/-! DEFINITION. The constants of the block and the capacities of the default configuration.

The parameters `WCAP` and `ACAP` (rules R7, R8) are read by software as `CFG_WCAP` and `CFG_ACAP` (rule R34), so they stand in
State, and every statement about a state holds for every choice of them; only `State.reset` takes the two values named here. -/

namespace Sys2Proof

/-- `ALPHABET`: the number of symbols (rule R6). -/
def Config.alphabet : Nat := 256

/-- DESIGN CHOICE (notes/assumptions/2.md): the buffer capacity of `State.reset`, that of the default case of the spec's test
vectors (95_test_vectors.md, conventions and vector Y10). Unsafe for statements about `State.reset` alone. -/
def Config.wcap : Long := 1048576#64

/-- The arena capacity of `State.reset`: the default of rule R8, which never exhausts. -/
def Config.acap : NodeIx := 511#9

/-- The number of bytes of a container header (rule R88). -/
def Config.headerBytes : Nat := 16

end Sys2Proof
end

