-- ==== Sys2Proof/Machine/State.lean ====
section
/-! DEFINITION. The state of the block (10_state.md R20 to R48), the reasons a step can stop, and the state after reset. -/

namespace Sys2Proof.Machine

/-- A node of the arena: `Leaf(symbol)` or `Internal(left, right)` (rule R38). The third record, `Empty`, is a slot at or above
`ATOP`, which the arena's list does not reach (rule R48): a read of a slot answers `none` there. -/
inductive Node where
  | leaf (sym : Byte)
  | internal (left right : NodeIx)
  deriving DecidableEq, Repr

/-- The error kinds of rule R230, codes 1 to 10. -/
inductive ErrorKind where
  | emptyInput
  | allocationExhausted
  | degenerateAlphabet
  | truncatedContainer
  | corruptStream
  | invalidBwtInput
  | notReady
  | symbolNotCoded
  | capacityExceeded
  | illegalCommand
  deriving DecidableEq, Repr

/-- Why the model stops with a fault. No rule of the spec stops the block: every command completes (rule R278). -/
inductive Fault where
  /-- Raised by HUF.GEN and BIT.UNPACK when `TREE_VALID = 1` and the walk from `ROOT` stands on a slot that holds no node, on a
  leaf where rule R183 says that the walk stands on an internal node, or in a cycle: a state that rule R40 rules out and no run
  from reset reaches, for which the spec gives no effect. Safe: the model stops where nothing is said (notes/assumptions/12.md). -/
  | brokenTree
  deriving DecidableEq, Repr

/-- Why the model refuses an instruction. -/
inductive Refusal where
  /-- Raised by an arm of `exec` for an instruction that has no meaning yet; no arm raises it. Safe. -/
  | notModelled (mnemonic : String)
  deriving DecidableEq, Repr

/-- The state of the block, rule R48's record with the registers of rules R32 to R34, and beside it what the host still sends and
what it has been answered. -/
structure State where
  /-- `W[0..WLEN]`, the architectural content of the work buffer (rule R36); its length is `WLEN` (rules R21, R48). -/
  w : List Byte
  /-- `START` (rule R22). -/
  start : Long
  /-- `DLEN` (rule R23). -/
  dlen : Long
  /-- `ARENA[0..ATOP-1]` (rule R38); its length is `ATOP` (rules R24, R48). -/
  arena : List Node
  /-- `ROOT` (rule R25). -/
  root : NodeIx
  /-- `TREE_VALID` (rule R30). -/
  treeValid : Bool
  /-- `CODE_VALID` (rule R31). -/
  codeValid : Bool
  /-- `COUNT`, the frequency table (rule R37). -/
  count : Vector Long 256
  /-- `CODE`, the code table (rule R39): an entry is its path, whose length is `len`; the empty path is "no code". -/
  code : Vector Bits 256
  /-- `CMD` and `BUSY` in one home (rules R29, R32): the command word from the moment it is accepted until the command completes,
  and nothing between commands (notes/assumptions/4.md). -/
  cmd : Option Byte
  /-- `STATUS` (rule R33). -/
  status : Byte
  /-- `CFG_WCAP`, hardwired to the parameter `WCAP` (rule R34). -/
  cfgWcap : Long
  /-- `CFG_ACAP`, hardwired to the parameter `ACAP` (rule R34). -/
  cfgAcap : NodeIx
  /-- The MODEL's own field (notes/assumptions/3.md): the host actions still to come, in order (rules R28, R73). -/
  pending : List HostAction
  /-- The MODEL's own field (notes/assumptions/3.md): what the block has answered, newest first. -/
  replies : List Reply
  deriving DecidableEq, Repr

/-- The state after reset of a block with capacities `wcap` and `acap`: rule R47's table (rules R190, R261). -/
def State.resetOf (wcap : Long) (acap : NodeIx) : State where
  w := []
  start := 0#64
  dlen := 0#64
  arena := []
  root := 0#9
  treeValid := false
  codeValid := false
  count := Vector.replicate 256 0#64
  code := Vector.replicate 256 []
  cmd := none
  status := 0#8
  cfgWcap := wcap
  cfgAcap := acap
  pending := []
  replies := []

/-- The machine right after reset, with the capacities of Config (notes/assumptions/2.md). -/
def State.reset : State := State.resetOf Config.wcap Config.acap

end Sys2Proof.Machine
end

