-- ==== Sys2Proof/Machine/Ops.lean ====
section
/-! DEFINITION. The named operations the meanings share: how a command ends, with success or with an error; reset; reads and writes
of the storage spaces; the lexicographic order and the stable sort of 00_scope.md. -/

namespace Sys2Proof.Machine

/-! ## How a command ends -/

/-- The code of an error kind (rule R230). -/
def errorCode (k : ErrorKind) : Byte :=
  match k with
  | .emptyInput => 1#8
  | .allocationExhausted => 2#8
  | .degenerateAlphabet => 3#8
  | .truncatedContainer => 4#8
  | .corruptStream => 5#8
  | .invalidBwtInput => 6#8
  | .notReady => 7#8
  | .symbolNotCoded => 8#8
  | .capacityExceeded => 9#8
  | .illegalCommand => 10#8

/-- The completion of a command: `STATUS` is written (rule R33), `BUSY` falls and `CMD` holds nothing (rules R29, R32). -/
def State.finish (s : State) (status : Byte) : State :=
  { s with status := status, cmd := none }

/-- `ok`: the command ends, `STATUS <- 0`, and the writes its rule lists, made in `s`, have taken place (rule R12). -/
def complete (s : State) : Host.Outcome State Fault Refusal :=
  .next (s.finish 0#8)

/-- `raise E`, the block's one way to take an exception (rules R12, R243): `STATUS <- code(E)`, `BUSY <- 0`, and every other
register, flag and storage element has the value it had when the command was issued. Nothing is saved, no mode changes, control
goes nowhere; there is no handler and no return command (rule R245). -/
def raise (k : ErrorKind) (s : State) : Host.Outcome State Fault Refusal :=
  .next (s.finish (errorCode k))

/-- Reset of the block: every piece of architectural state to its reset value; `CFG_WCAP` and `CFG_ACAP` are not affected (rules
R34, R47, R190, R261), and what the host sends and has been answered is not the block's. -/
def State.resetBlock (s : State) : State :=
  { State.resetOf s.cfgWcap s.cfgAcap with pending := s.pending, replies := s.replies }

/-- The block's answer to a host action. -/
def State.reply (s : State) (r : Reply) : State :=
  { s with replies := r :: s.replies }

/-! ## The storage spaces -/

/-- The symbols 0 to 255 in ascending order. -/
def allSymbols : List Byte :=
  (List.range Config.alphabet).map (BitVec.ofNat 8)

/-- `COUNT[sym]` (rule R37). -/
def State.readCount (s : State) (sym : Byte) : Long :=
  s.count[sym.toNat]'(sym.isLt)

/-- `COUNT[sym] <- c` (rule R196). -/
def State.writeCount (s : State) (sym : Byte) (c : Long) : State :=
  { s with count := s.count.set sym.toNat c sym.isLt }

/-- The path of `CODE[sym]`, empty where the symbol has no code (rule R39). -/
def State.readCode (s : State) (sym : Byte) : Bits :=
  s.code[sym.toNat]'(sym.isLt)

/-- The code table in which no symbol has a code (rules R39, R142, R160). -/
def emptyCode : Vector Bits 256 := Vector.replicate 256 []

/-- `ARENA[i]`, `none` for a slot at or above `ATOP`, which is `Empty` (rules R38, R48). -/
def readSlot (arena : List Node) (i : NodeIx) : Option Node :=
  arena[i.toNat]?

/-- The storage spaces keep their form: `W` fits its capacity and the arena its own (rules R16, R21, R24). -/
def Memory.wf (s : State) : Bool :=
  decide (s.w.length ≤ s.cfgWcap.toNat) && decide (s.arena.length ≤ s.cfgAcap.toNat)

/-! ## Order and sorting -/

/-- `a <lex b` (rule R13): the empty sequence is less than every non-empty one, and bytes compare as unsigned numbers. -/
def lexLt (a b : List Byte) : Bool :=
  match a, b with
  | [], [] => false
  | [], _ :: _ => true
  | _ :: _, [] => false
  | x :: xs, y :: ys => decide (x.toNat < y.toNat) || (decide (x = y) && lexLt xs ys)

/-- Insert `x` after every entry that is not above it and before every entry that is (rule R140). -/
def insertAfter {α : Type} (le : α → α → Bool) (x : α) (l : List α) : List α :=
  match l with
  | [] => [x]
  | y :: ys => if le y x then y :: insertAfter le x ys else x :: y :: ys

/-- The stable sort of rule R14: ascending, and elements of equal key keep the order they had. -/
def stableSort {α : Type} (le : α → α → Bool) (l : List α) : List α :=
  l.foldl (fun sorted x => insertAfter le x sorted) []

end Sys2Proof.Machine
end

