-- ==== Sys2Proof/Machine/Operands.lean ====
section
/-! DEFINITION. The operands of the commands. A command names its operands implicitly (rules R26, R84): the views of State that
the command rules read, and the conversions between bytes and bit sequences. -/

namespace Sys2Proof.Machine

/-- `WLEN`, the number of valid bytes of `W` (rules R21, R48). -/
def State.wlen (s : State) : Long := BitVec.ofNat 64 s.w.length

/-- `ATOP`, the index of the next free slot and the number of nodes allocated (rules R24, R48). -/
def State.atop (s : State) : NodeIx := BitVec.ofNat 9 s.arena.length

/-- `BUSY`: 1 from the moment a command is accepted until it completes (rule R29). -/
def State.busy (s : State) : Bool := s.cmd.isSome

/-- The frequency table `[(s, COUNT[s]) for s = 0..255 if COUNT[s] >= 1]` (rules R37, R135). -/
def State.freqTable (s : State) : List (Byte × Long) :=
  (allSymbols.zip s.count.toList).filter (fun e => decide (e.2 ≠ 0#64))

/-- Bits 7 down to 0 of a byte, the first bit of the sequence in bit 7 (rules R66, R182). -/
def bitsOfByte (b : Byte) : Bits :=
  [b.getLsbD 7, b.getLsbD 6, b.getLsbD 5, b.getLsbD 4, b.getLsbD 3, b.getLsbD 2, b.getLsbD 1, b.getLsbD 0]

/-- The number whose binary numeral is a bit sequence, most significant bit first (rule R93). -/
def natOfBits (bits : Bits) : Nat :=
  bits.foldl (fun acc b => 2 * acc + b.toNat) 0

/-- The byte that holds the first eight bits of a sequence from bit 7 down, with 0 where the sequence has ended (rules R174, R175). -/
def byteOfBits (bits : Bits) : Byte :=
  BitVec.ofNat 8 (natOfBits ((bits ++ List.replicate 8 false).take 8))

/-- `m` bytes packed from a bit sequence, most significant bit first (rules R66, R174). -/
def packBytes (m : Nat) (bits : Bits) : List Byte :=
  match m with
  | 0 => []
  | k + 1 => byteOfBits bits :: packBytes k (bits.drop 8)

/-- `ceil(B / 8) = (B + 7) div 8` (rule R18). -/
def bytesFor (nbits : Nat) : Nat := (nbits + 7) / 8

/-- The bit sequence of a byte sequence, in the same order (rule R182). -/
def unpackBits (bytes : List Byte) : Bits := bytes.flatMap bitsOfByte

end Sys2Proof.Machine
end

