-- ==== Sys2Proof/Machine/Flags.lean ====
section
/-! DEFINITION. The flags (rules R29 to R31, R49): what writes them, and the flags word. There are no condition codes. -/

namespace Sys2Proof.Machine

/-- What a successful HUF.BUILD does to the flags and to the code table that depends on them: `TREE_VALID <- 1`, every `CODE[s]`
becomes `(0, [])`, `CODE_VALID <- 0` (rules R30, R31, R142). -/
def State.flagTreeBuilt (s : State) : State :=
  { s with treeValid := true, codeValid := false, code := emptyCode }

/-- What a successful HUF.GEN does: the code table is written and `CODE_VALID <- 1` (rules R31, R160). -/
def State.flagCodeGenerated (s : State) (code : Vector Bits 256) : State :=
  { s with code := code, codeValid := true }

/-- The flags word of `get_FLAGS`: bit 0 `TREE_VALID`, bit 1 `CODE_VALID`, bit 2 `BUSY`, bits 7:3 zero (rules R94, R202). -/
def State.flagsWord (s : State) : Byte :=
  0#5 ++ BitVec.ofBool s.busy ++ BitVec.ofBool s.codeValid ++ BitVec.ofBool s.treeValid

end Sys2Proof.Machine
end

