-- ==== Sys2Proof/Machine/BitCodec.lean ====
section
/-! DEFINITION. The bit codec (44_bit_codec.md): bitstream_pack, bitstream_unpack, BIT.PACK and BIT.UNPACK. -/

namespace Sys2Proof.Machine

/-- The logical bit sequence: the code of each symbol of the input, in the order of the input (rule R173). -/
def State.codedBits (s : State) (symbols : List Byte) : Bits :=
  symbols.flatMap s.readCode

/-- BIT.PACK (rule R170): NotReady, SymbolNotCoded and CapacityExceeded in this order (rules R171, R172, R241). -/
def execBitPack (s : State) : Host.Outcome State Fault Refusal :=
  if s.codeValid = false then raise .notReady s
  else if s.w.any (fun b => decide ((s.readCode b).length = 0)) then raise .symbolNotCoded s
  else if s.cfgWcap.toNat < bytesFor (s.codedBits s.w).length then raise .capacityExceeded s
  else
    complete
      { s with
        w := packBytes (bytesFor (s.codedBits s.w).length) (s.codedBits s.w)
        dlen := BitVec.ofNat 64 s.w.length }

/-- How the walk of BIT.UNPACK ends: with all symbols, with an error kind, or on a tree that rule R40 rules out. -/
inductive WalkEnd where
  | done (out : List Byte)
  | failed (k : ErrorKind)
  | broken
  deriving DecidableEq, Repr

/-- A symbol emitted before the rest of the walk. -/
def WalkEnd.emit (sym : Byte) (e : WalkEnd) : WalkEnd :=
  match e with
  | .done out => .done (sym :: out)
  | .failed k => .failed k
  | .broken => .broken

/-- The loop of BIT.UNPACK (rules R180, R183 to R186): `bits` are those not yet read, `cur` the walk's position and `need` how many
symbols are still to come. The loop stops on the symbol count alone; when the bits run out it is TruncatedContainer at the root
and CorruptStream inside a code (rule R185). -/
def unpackWalk (arena : List Node) (root : NodeIx) (bits : Bits) (cur : NodeIx) (need : Nat) : WalkEnd :=
  match bits, need with
  | _, 0 => .done []
  | [], _ + 1 => .failed (if cur = root then .truncatedContainer else .corruptStream)
  | b :: rest, n + 1 =>
    match readSlot arena cur with
    | some (.internal l r) =>
      let child := if b then r else l
      match readSlot arena child with
      | some (.leaf sym) => (unpackWalk arena root rest root n).emit sym
      | some (.internal _ _) => unpackWalk arena root rest child (n + 1)
      | none => unpackWalk arena root rest child (n + 1)
    | some (.leaf _) => .broken
    | none => .broken

/-- BIT.UNPACK (rule R180): NotReady, then CapacityExceeded (rule R181), then what the walk decides (rule R241). It decodes with the
tree and does not consult `CODE_VALID`; `DLEN` is unchanged. -/
def execBitUnpack (s : State) : Host.Outcome State Fault Refusal :=
  if s.treeValid = false then raise .notReady s
  else if s.cfgWcap.toNat < s.dlen.toNat then raise .capacityExceeded s
  else
    match unpackWalk s.arena s.root (unpackBits s.w) s.root s.dlen.toNat with
    | .done out => complete { s with w := out }
    | .failed k => raise k s
    | .broken => .fault .brokenTree

end Sys2Proof.Machine
end

