-- ==== Sys2Proof/Machine/Bwt.lean ====
section
/-! DEFINITION. The BWT unit (40_bwt.md): suffix_sort, permutation_reorder, BWT.FWD and BWT.INV. -/

namespace Sys2Proof.Machine

/-- Suffix `i` does not come after suffix `j` in the order of rule R13. -/
def suffixLe (bytes : List Byte) (i j : Nat) : Bool :=
  !lexLt (bytes.drop j) (bytes.drop i)

/-- `suffix_sort(bytes)` (rules R100, R101): the indices `0..n` sorted by their suffixes, index `n` being the empty suffix. How it
is computed is free, because the result is unique (rules R102, R107). -/
def suffixSort (bytes : List Byte) : List Nat :=
  stableSort (suffixLe bytes) (List.range (bytes.length + 1))

/-- `startIndex` of `permutation_reorder`: the `r` with `SA[r] = 0` (rule R103). -/
def startIndex (sa : List Nat) : Nat := sa.idxOf 0

/-- `permuted` of `permutation_reorder`: `bytes[SA[r] - 1]` for every `r` with `SA[r] > 0`, in this order (rule R103). -/
def permutedBytes (bytes : List Byte) (sa : List Nat) : List Byte :=
  sa.filterMap (fun i => if i = 0 then none else bytes[i - 1]?)

/-- BWT.FWD (rule R104). -/
def execBwtFwd (s : State) : Host.Outcome State Fault Refusal :=
  if s.w.length = 0 then raise .emptyInput s
  else
    complete
      { s with
        w := permutedBytes s.w (suffixSort s.w)
        start := BitVec.ofNat 64 (startIndex (suffixSort s.w)) }

/-- `T` of rule R109: the pairs of each byte with its position, stable-sorted by byte. -/
def inversePairs (l : List Byte) : List (Byte × Nat) :=
  stableSort (fun a b => decide (a.1.toNat ≤ b.1.toNat)) l.zipIdx

/-- `row(k)` of rule R109: position `k` of `L` is row `row(k)` of the sorted order, which skips row `p`. -/
def inverseRow (p k : Nat) : Nat := if k < p then k else k + 1

/-- The walk of rule R109, `n` more steps from row `r`; `none` is `invalid`. Row 0 is the empty suffix; the table is never read
outside its range when the walk starts in `1..n` (rule R110). -/
def inverseWalk (t : List (Byte × Nat)) (p : Nat) (n r : Nat) : Option (List Byte) :=
  match n with
  | 0 => some []
  | k + 1 =>
    if r = 0 then none
    else
      match t[r - 1]? with
      | some (c, pos) => (inverseWalk t p k (inverseRow p pos)).map (fun out => c :: out)
      | none => none

/-- `inverse(p, L)` (rule R109). -/
def inverseBwt (p : Nat) (l : List Byte) : Option (List Byte) :=
  inverseWalk (inversePairs l) p l.length p

/-- BWT.INV (rule R108): EmptyInput is tested first, then the range of `START`, then the walk (rule R241). -/
def execBwtInv (s : State) : Host.Outcome State Fault Refusal :=
  if s.w.length = 0 then raise .emptyInput s
  else if s.start.toNat < 1 ∨ s.w.length < s.start.toNat then raise .invalidBwtInput s
  else
    match inverseBwt s.start.toNat s.w with
    | none => raise .invalidBwtInput s
    | some out => complete { s with w := out }

end Sys2Proof.Machine
end

