-- ==== Sys2Proof/Machine/HuffmanCode.lean ====
section
/-! DEFINITION. The Huffman code generator (43_huffman_code.md): tree_traversal, symbol_to_bitcode, HUF.GEN. -/

namespace Sys2Proof.Machine

/-- `visit(i, path)` (rule R161): the writes `CODE[s] <- path` in the order of the visit, left before right. `fuel` bounds the
nested activations: a child's index is below its parent's (rule R40), so `ATOP` of them always suffice (rule R163); `none` is a
walk that meets a slot without a node, or a cycle, which rule R40 rules out. -/
def visitTree (arena : List Node) (fuel : Nat) (i : NodeIx) (path : Bits) : Option (List (Byte × Bits)) :=
  match fuel with
  | 0 => none
  | k + 1 =>
    match readSlot arena i with
    | none => none
    | some (.leaf s) => some [(s, path)]
    | some (.internal l r) =>
      match visitTree arena k l (path ++ [false]), visitTree arena k r (path ++ [true]) with
      | some a, some b => some (a ++ b)
      | _, _ => none

/-- The writes of the visit on a table that has been cleared (rules R160, R167). -/
def writeCodes (entries : List (Byte × Bits)) : Vector Bits 256 :=
  entries.foldl (fun code e => code.set e.1.toNat e.2 e.1.isLt) emptyCode

/-- The code table of a tree (rules R160, R161). -/
def codeTable (arena : List Node) (root : NodeIx) : Option (Vector Bits 256) :=
  (visitTree arena arena.length root []).map writeCodes

/-- HUF.GEN (rule R160): NotReady when there is no valid tree (rule R166). -/
def execHufGen (s : State) : Host.Outcome State Fault Refusal :=
  if s.treeValid = false then raise .notReady s
  else
    match codeTable s.arena s.root with
    | some code => complete (s.flagCodeGenerated code)
    | none => .fault .brokenTree

end Sys2Proof.Machine
end

