-- ==== Sys2Proof/Machine/HuffmanTree.lean ====
section
/-! DEFINITION. The Huffman tree builder (42_huffman_tree.md): frequency_to_tree, greedy_merge_with_arena, HUF.BUILD. -/

namespace Sys2Proof.Machine

/-- An entry of `QUEUE` (rule R42). A weight is 72 bits wide and no sum of counts reaches 2^72, so it is exact (rules R15, R17). -/
structure QueueEntry where
  weight : Nat
  node : NodeIx
  deriving DecidableEq, Repr

/-- The order of the queue: by weight (rules R138, R140). -/
def weightLe (a b : QueueEntry) : Bool := decide (a.weight ≤ b.weight)

/-- One leaf per table entry, in table order (rule R137). -/
def leavesOf (table : List (Byte × Long)) : List Node :=
  table.map (fun e => .leaf e.1)

/-- The queue at its start: the leaves sorted ascending by weight, with the table order as the stable tie-break (rule R138). -/
def initialQueue (table : List (Byte × Long)) : List QueueEntry :=
  stableSort weightLe (table.zipIdx.map (fun e => ⟨e.1.2.toNat, BitVec.ofNat 9 e.2⟩))

/-- At most `k` merge steps, each while the queue has more than one entry (rules R139, R140, R143): the two first entries become
the children of a new node, whose slot is `ATOP`, and the new node goes into the queue after every entry whose weight is not
above its own. -/
def mergeLoop (k : Nat) (queue : List QueueEntry) (arena : List Node) : List QueueEntry × List Node :=
  match k, queue with
  | n + 1, a :: b :: rest =>
    mergeLoop n
      (insertAfter weightLe ⟨a.weight + b.weight, BitVec.ofNat 9 arena.length⟩ rest)
      (arena ++ [.internal a.node b.node])
  | _, _ => (queue, arena)

/-- The arena and the root built from a table (rules R137 to R141): a table of `n` entries takes `n - 1` merge steps, and the one
entry that remains is the root. -/
def buildTree (table : List (Byte × Long)) : List Node × NodeIx :=
  let r := mergeLoop (table.length - 1) (initialQueue table) (leavesOf table)
  (r.2, (r.1.head?.map (fun e => e.node)).getD 0#9)

/-- HUF.BUILD (rule R142), with the checks of rule R136 in their order. -/
def execHufBuild (s : State) : Host.Outcome State Fault Refusal :=
  let table := s.freqTable
  if table.length = 0 then raise .emptyInput s
  else if table.length = 1 then raise .degenerateAlphabet s
  else if s.cfgAcap.toNat < 2 * table.length - 1 then raise .allocationExhausted s
  else
    complete
      ({ s with arena := (buildTree table).1, root := (buildTree table).2 } : State).flagTreeBuilt

end Sys2Proof.Machine
end

