-- ==== Sys2Proof/Machine/Mtf.lean ====
section
/-! DEFINITION. The MTF unit (41_mtf.md): symbol_list_update, MTF.ENC and MTF.DEC. -/

namespace Sys2Proof.Machine

/-- The seed of `LIST`: `LIST[i] = i` (rule R120). -/
def identityList : List Byte := allSymbols

/-- `symbol_list_update(i)` (rule R121): the entry at index `i` moves to the front, those before it move up by one. -/
def symbolListUpdate (list : List Byte) (i : Nat) : List Byte :=
  match list[i]? with
  | some b => b :: (list.take i ++ list.drop (i + 1))
  | none => list

/-- The loop of MTF.ENC from a list, with `LIST` at its end (rule R122). -/
def mtfEncodeFrom (list : List Byte) (input : List Byte) : List Byte × List Byte :=
  match input with
  | [] => ([], list)
  | b :: rest =>
    let i := list.idxOf b
    let r := mtfEncodeFrom (symbolListUpdate list i) rest
    (BitVec.ofNat 8 i :: r.1, r.2)

/-- The loop of MTF.DEC from a list, with `LIST` at its end (rule R123). An index is a byte, so it is in the range of the
256-entry list (rule R127). -/
def mtfDecodeFrom (list : List Byte) (input : List Byte) : List Byte × List Byte :=
  match input with
  | [] => ([], list)
  | i :: rest =>
    let r := mtfDecodeFrom (symbolListUpdate list i.toNat) rest
    (list.getD i.toNat 0#8 :: r.1, r.2)

/-- The output of MTF.ENC (rule R122). -/
def mtfEncode (input : List Byte) : List Byte := (mtfEncodeFrom identityList input).1

/-- The output of MTF.DEC (rule R123). -/
def mtfDecode (input : List Byte) : List Byte := (mtfDecodeFrom identityList input).1

/-- MTF.ENC (rule R122): it always succeeds, on the empty buffer too (rule R126). -/
def execMtfEnc (s : State) : Host.Outcome State Fault Refusal :=
  complete { s with w := mtfEncode s.w }

/-- MTF.DEC (rule R123): it always succeeds (rules R126, R127). -/
def execMtfDec (s : State) : Host.Outcome State Fault Refusal :=
  complete { s with w := mtfDecode s.w }

end Sys2Proof.Machine
end

