-- ==== Sys2Proof/Machine/System.lean ====
section
/-! DEFINITION. The system command (45_system_and_host.md section 1). -/

namespace Sys2Proof.Machine

/-- SYS.RST (rule R190): every register, flag and storage space takes its reset value, `STATUS <- 0`; the command always
succeeds. -/
def execSysRst (s : State) : Host.Outcome State Fault Refusal :=
  complete s.resetBlock

end Sys2Proof.Machine
end

