-- ==== Sys2Proof/Machine/HostPort.lean ====
section
/-! DEFINITION. The host port (45_system_and_host.md): the layouts of the records a host reads, and the effect of each host action
on an idle block. -/

namespace Sys2Proof.Machine

/-- The 32-bit record of a slot (rule R92): tag in bits 31:30, left child in bits 24:16, right child or symbol in bits 8:0. -/
def nodeRecord (slot : Option Node) : BitVec 32 :=
  match slot with
  | none => 0#32
  | some (.leaf sym) => 1#2 ++ 0#5 ++ 0#9 ++ 0#7 ++ 0#1 ++ sym
  | some (.internal l r) => 2#2 ++ 0#5 ++ l ++ 0#7 ++ r

/-- The pair `(len, value)` of a code entry: the path is the `len`-bit binary numeral of `value`, most significant bit first
(rule R93). -/
def codeEntry (path : Bits) : Byte × BitVec 255 :=
  (BitVec.ofNat 8 path.length, BitVec.ofNat 255 (natOfBits path))

/-- The effect of an action that the port accepts, on an idle block (rules R192, R194 to R202). A `get` changes nothing of the
block and a `put` does not write `STATUS` (rule R193). -/
def acceptAction (a : HostAction) (s : State) : State :=
  match a with
  | .issue word => { s with cmd := some word }
  | .putW bytes => { s with w := bytes }
  | .putCount sym c => s.writeCount sym (BitVec.ofNat 64 c)
  | .putStart v => { s with start := BitVec.ofNat 64 v }
  | .putDlen v => { s with dlen := BitVec.ofNat 64 v }
  | .getW => s.reply (.bytes s.w)
  | .getWlen => s.reply (.long s.wlen)
  | .getWByte i => s.reply (.byte (s.w.getD i 0#8))
  | .getCount sym => s.reply (.long (s.readCount sym))
  | .getStart => s.reply (.long s.start)
  | .getDlen => s.reply (.long s.dlen)
  | .getStatus => s.reply (.byte s.status)
  | .getNode i => s.reply (.node (nodeRecord s.arena[i]?))
  | .getRoot => s.reply (.index s.root)
  | .getAtop => s.reply (.index s.atop)
  | .getCode sym => s.reply (.code (codeEntry (s.readCode sym)).1 (codeEntry (s.readCode sym)).2)
  | .getFlags => s.reply (.byte s.flagsWord)
  | .getCfg => s.reply (.cfg s.cfgWcap s.cfgAcap)
  | .hardwareReset => s.resetBlock

/-- The arguments of an action are in range on this block (rules R194 to R198, R200). -/
def inRange (a : HostAction) (s : State) : Bool :=
  a.WellFormed s.cfgWcap.toNat s.cfgAcap.toNat s.w.length

/-- A host action on an idle block: an argument out of range is refused, without effect, and the host is told so (rules R63, R195,
R200, R204). -/
def performAction (a : HostAction) (s : State) : State :=
  if inRange a s then acceptAction a s else s.reply .refused

end Sys2Proof.Machine
end

