-- ==== Sys2Proof/Machine/Sequencer.lean ====
section
/-! DEFINITION. The command sequencer: running the word in `CMD`, and one step of the block with its host. -/

namespace Sys2Proof.Machine

/-- Run a command word to completion (rules R192, R86): one of the nine commands, or IllegalCommand. -/
def runWord (word : Byte) (s : State) : Host.Outcome State Fault Refusal :=
  match decodeWord word with
  | .ok i => exec i s
  | .error _ => raise .illegalCommand s

/-- The response of `issue` carries the new `STATUS` (rule R192). -/
def respond (o : Host.Outcome State Fault Refusal) : Host.Outcome State Fault Refusal :=
  match o with
  | .next t => .next (t.reply (.completed t.status))
  | .fault f => .fault f
  | .refused r => .refused r

/-- One step. A hardware reset takes effect at once, and abandons a command (rules R260, R263). A command that has been accepted is
completed, as one atomic step, while every host action waits (rules R71, R193). An idle block takes the next host action, and
one with no action to take stays as it is. -/
def advance (s : State) : Host.Outcome State Fault Refusal :=
  match s.pending, s.cmd with
  | .hardwareReset :: rest, _ => .next ({ s with pending := rest } : State).resetBlock
  | _, some word => respond (runWord word s)
  | [], none => .next s
  | a :: rest, none => .next (performAction a { s with pending := rest })

/-- The host actions with a hardware reset at their head taken away, as many as stand there. -/
def dropResets (actions : List HostAction) : List HostAction :=
  match actions with
  | .hardwareReset :: rest => dropResets rest
  | other => other

/-- `s` with a command word accepted into `CMD`, so that the next step runs it: no reset may stand before it. -/
def State.withCommand (s : State) (word : Byte) : State :=
  { s with cmd := some word, pending := dropResets s.pending }

end Sys2Proof.Machine
end

