-- ==== Sys2Proof/Machine/HostProcs.lean ====
section
/-! DEFINITION. The host-side procedures (46_host_pipeline.md) and the container format (30_encoding.md R88 to R91): what a host
computes itself, and the programs of host actions it runs on an idle block. Nothing here adds state to the block (rule R5). -/

namespace Sys2Proof.Machine

/-! ## The Frequency Analyzer -/

/-- `analyze(symbols)` (rules R210 to R212): for every byte value that occurs its number of occurrences, in ascending order of the
value; EmptyInput on the empty sequence. How the counting is done is unobservable (rule R210). -/
def analyze (symbols : List Byte) : Except ErrorKind (List (Byte × Nat)) :=
  if symbols.length = 0 then .error .emptyInput
  else
    .ok ((allSymbols.map (fun s => (s, symbols.count s))).filter (fun e => decide (e.2 ≠ 0)))

/-! ## The container -/

/-- A container (rule R88). -/
structure Container where
  decodedLength : Long
  bwtStartIndex : Long
  payload : List Byte
  deriving DecidableEq, Repr

/-- The `n` low bytes of a number, least significant first (rules R67, R89). -/
def littleEndian (n v : Nat) : List Byte :=
  match n with
  | 0 => []
  | k + 1 => BitVec.ofNat 8 v :: littleEndian k (v / 256)

/-- `le64(v)` (rule R214). -/
def le64 (v : Long) : List Byte := littleEndian 8 v.toNat

/-- `b0 + 256*b1 + 256^2*b2 + ...` (rule R89). -/
def natOfLittleEndian (bytes : List Byte) : Nat :=
  match bytes with
  | [] => 0
  | b :: rest => b.toNat + 256 * natOfLittleEndian rest

/-- `from_le64` (rule R215). -/
def fromLe64 (bytes : List Byte) : Long := BitVec.ofNat 64 (natOfLittleEndian bytes)

/-- `le64(d) ++ le64(p) ++ payload` (rules R88, R214). -/
def assembleContainer (c : Container) : List Byte :=
  le64 c.decodedLength ++ le64 c.bwtStartIndex ++ c.payload

/-- The header check and the header's fields: TruncatedContainer for fewer than 16 bytes (rules R91, R215, R216). -/
def parseContainer (bytes : List Byte) : Except ErrorKind Container :=
  if bytes.length < Config.headerBytes then .error .truncatedContainer
  else
    .ok
      { decodedLength := fromLe64 (bytes.take 8)
        bwtStartIndex := fromLe64 ((bytes.drop 8).take 8)
        payload := bytes.drop Config.headerBytes }

/-! ## Programs of host actions -/

/-- How a host program ends (rule R219), with the block's state: with a result; with the first error code a command returned, or
the kind the host itself found; with a `put` the port refused (rule R195), for which the document has no kind (rule R216); or
with a stop of the model. -/
inductive ProcEnd (α : Type) where
  | done (s : State) (result : α)
  | failed (s : State) (code : Byte)
  | putRefused (s : State)
  | stopped
  deriving DecidableEq, Repr

/-- A `put`, and what follows it if the port accepts it. -/
def hostPut {α : Type} (a : HostAction) (s : State) (next : State → ProcEnd α) : ProcEnd α :=
  if inRange a s then next (acceptAction a s) else .putRefused s

/-- `issue`, to the completion of the command, and what follows it if `STATUS` is 0: "the orchestrator aborts the entire call on
first failure" (rules R192, R219). -/
def hostIssue {α : Type} (i : Instr) (s : State) (next : State → ProcEnd α) : ProcEnd α :=
  match runWord (encodeWord i) s with
  | .next t => if t.status = 0#8 then next t else .failed t t.status
  | .fault _ => .stopped
  | .refused _ => .stopped

/-- `put_COUNT(s, c)` for every entry of a list, in order, and what follows them if the port accepts them all. -/
def putCounts {α : Type} (entries : List (Byte × Nat)) (s : State) (next : State → ProcEnd α) : ProcEnd α :=
  match entries with
  | [] => next s
  | e :: rest => hostPut (.putCount e.1 e.2) s fun t => putCounts rest t next

/-- The 256 counts of a table, 0 for a symbol that is not in it (rules R97, R212). -/
def allCounts (table : List (Byte × Nat)) : List (Byte × Nat) :=
  allSymbols.map (fun s =>
    (s, ((table.find? (fun e => decide (e.1 = s))).map (fun e => e.2)).getD 0))

/-- `INSTALL table` (rules R97, R213). A table is the host's and its counts are numbers. A count of 2^64 or more is out of `put_COUNT`'s
range, so that the port refuses it (rules R196, R204); the spec does not say what INSTALL does then. DESIGN CHOICE
(notes/assumptions/19.md): it ends there, with the counts of the smaller symbols written and no command issued. -/
def install (table : List (Byte × Nat)) (s : State) : ProcEnd Unit :=
  putCounts (allCounts table) s fun s =>
  hostIssue .hufBuild s fun s =>
  hostIssue .hufGen s fun s =>
  .done s ()

/-- `compress(bytes)` with the installed table (rules R97, R214). -/
def compress (bytes : List Byte) (s : State) : ProcEnd (List Byte) :=
  hostPut (.putW bytes) s fun s =>
  hostIssue .bwtFwd s fun s =>
  hostIssue .mtfEnc s fun s =>
  hostIssue .bitPack s fun s =>
  .done s (assembleContainer { decodedLength := s.dlen, bwtStartIndex := s.start, payload := s.w })

/-- `decompress(container)` with the installed tree (rules R97, R215). -/
def decompress (bytes : List Byte) (s : State) : ProcEnd (List Byte) :=
  match parseContainer bytes with
  | .error k => .failed s (errorCode k)
  | .ok c =>
    hostPut (.putDlen c.decodedLength.toNat) s fun s =>
    hostPut (.putStart c.bwtStartIndex.toNat) s fun s =>
    hostPut (.putW c.payload) s fun s =>
    hostIssue .bitUnpack s fun s =>
    hostIssue .mtfDec s fun s =>
    hostIssue .bwtInv s fun s =>
    .done s s.w

/-- `train(sample)` (rules R97, R217): it needs no table. The table counts the recoded symbols (rule R218), so that it has one entry when
all of these are equal. DEDUCED (notes/assumptions/20.md): rule R218 says that only a one-byte sample and one of zero bytes give such a
table, but by rules R104, R122 and R217, from which it is derived, the sample `ab` gives one too. -/
def train (sample : List Byte) (s : State) : ProcEnd (List (Byte × Nat)) :=
  hostPut (.putW sample) s fun s =>
  hostIssue .bwtFwd s fun s =>
  hostIssue .mtfEnc s fun s =>
  match analyze s.w with
  | .error k => .failed s (errorCode k)
  | .ok table => .done s table

end Sys2Proof.Machine
end

