-- ==== Sys2Proof/Safety.lean ====
section
/-! DEFINITION. The terms claims are stated in: the invariant of the block, the order of suffixes, the way to a leaf of the tree,
and the rows the inverse walk visits. -/

namespace Sys2Proof

open Sys2Proof.Machine

/-! ## The tree -/

/-- The children of the nodes of an arena, in slot order. -/
def childRefs (arena : List Node) : List NodeIx :=
  arena.flatMap (fun node =>
    match node with
    | .leaf _ => []
    | .internal l r => [l, r])

/-- The symbols of the leaves of an arena, in slot order. -/
def leafSymbols (arena : List Node) : List Byte :=
  arena.filterMap (fun node =>
    match node with
    | .leaf s => some s
    | .internal _ _ => none)

/-- Slot `i` holds an internal node whose children have smaller indices. -/
def internalBelow (arena : List Node) (i : Nat) : Bool :=
  match arena[i]? with
  | some (.internal l r) => decide (l.toNat < i) && decide (r.toNat < i)
  | some (.leaf _) => false
  | none => false

/-- Rule R40 for a tree over `n` symbols: `n >= 2`; `ATOP = 2n - 1`; slots `0..n-1` are leaves with distinct symbols in ascending
order; slots `n..2n-2` are internal nodes whose children have smaller indices; `ROOT = 2n - 2`; every slot other than `ROOT` is
the child of exactly one internal node, and once. -/
abbrev TreeOver (n : Nat) (arena : List Node) (root : NodeIx) : Prop :=
  2 ≤ n ∧ arena.length = 2 * n - 1 ∧
  (leafSymbols (arena.take n)).length = n ∧
  (leafSymbols (arena.take n)).Pairwise (fun a b => a.toNat < b.toNat) ∧
  (∀ k, k < n - 1 → internalBelow arena (n + k) = true) ∧
  root.toNat = 2 * n - 2 ∧
  (∀ i, i < 2 * n - 2 → (childRefs arena).count (BitVec.ofNat 9 i) = 1)

/-- The slot reached from slot `i` by a sequence of turns, 0 to the left child and 1 to the right (rule R161). -/
def follow (arena : List Node) (i : NodeIx) (turns : Bits) : Option NodeIx :=
  match turns with
  | [] => some i
  | b :: rest =>
    match readSlot arena i with
    | some (.internal l r) => follow arena (if b then r else l) rest
    | some (.leaf _) => none
    | none => none

/-- The turns lead from the root to a leaf of the symbol: they are "the sequence of turns on the unique way from ROOT to its leaf"
(rule R161). -/
def LeadsToLeaf (arena : List Node) (root : NodeIx) (turns : Bits) (sym : Byte) : Prop :=
  ∃ i, follow arena root turns = some i ∧ readSlot arena i = some (.leaf sym)

/-- The turns lead from the root to an internal node. -/
def LeadsToInternal (arena : List Node) (root : NodeIx) (turns : Bits) : Prop :=
  ∃ i l r, follow arena root turns = some i ∧ readSlot arena i = some (.internal l r)

/-! ## The invariant -/

/-- What holds of the block in every state a run reaches: the capacities are those of rules R7 and R8, `W` and `ARENA` fit them (rules
R16, R21, R24), `STATUS` is legal (rule R33), a valid tree has the form of rule R40, an invalid one is absent (rule R30, item I20
of 93_implementation_defined.md), and `CODE` is the table of the current tree or empty (rules R31, R201). -/
structure Inv (s : State) : Prop where
  wcapPos : 1 ≤ s.cfgWcap.toNat
  acapRange : 1 ≤ s.cfgAcap.toNat ∧ s.cfgAcap.toNat ≤ 511
  wFits : s.w.length ≤ s.cfgWcap.toNat
  arenaFits : s.arena.length ≤ s.cfgAcap.toNat
  statusLegal : s.status.toNat ≤ 10
  treePresent : s.treeValid = true → ∃ n, TreeOver n s.arena s.root
  treeAbsent : s.treeValid = false → s.arena = [] ∧ s.root = 0#9 ∧ s.codeValid = false
  codePresent : s.codeValid = true → codeTable s.arena s.root = some s.code
  codeAbsent : s.codeValid = false → s.code = emptyCode

/-- Every element of rule R47's table at its reset value, on a block with these capacities. -/
structure HasResetValues (wcap : Long) (acap : NodeIx) (s : State) : Prop where
  wEmpty : s.w = []
  wlenZero : s.wlen = 0#64
  startZero : s.start = 0#64
  dlenZero : s.dlen = 0#64
  atopZero : s.atop = 0#9
  rootZero : s.root = 0#9
  notBusy : s.busy = false
  noTree : s.treeValid = false
  noCode : s.codeValid = false
  statusZero : s.status = 0#8
  wcapKept : s.cfgWcap = wcap
  acapKept : s.cfgAcap = acap
  countsZero : ∀ sym, s.readCount sym = 0#64
  slotsEmpty : ∀ i, readSlot s.arena i = none
  codesEmpty : ∀ sym, s.readCode sym = []

/-! ## The order of suffixes and the inverse walk -/

/-- Rule R101: a permutation of the indices `0..n` in which each suffix is less than the next. -/
def IsSuffixOrder (bytes : List Byte) (sa : List Nat) : Prop :=
  sa.Perm (List.range (bytes.length + 1)) ∧
  ∀ r i j, sa[r]? = some i → sa[r + 1]? = some j → lexLt (bytes.drop i) (bytes.drop j) = true

/-- The row on which the walk of rule R109 stands after `j` steps; it stays at row 0, which has no entry in the table. -/
def walkRow (l : List Byte) (p j : Nat) : Nat :=
  match j with
  | 0 => p
  | k + 1 =>
    let r := walkRow l p k
    if r = 0 then 0
    else
      match (inversePairs l)[r - 1]? with
      | some e => inverseRow p e.2
      | none => 0

/-! ## The frequency table as the host sees it -/

/-- The symbols whose count is at least 1, in ascending order (rule R135). -/
def countedSymbols (s : State) : List Byte :=
  allSymbols.filter (fun sym => decide (s.readCount sym ≠ 0#64))

/-- The queue after the entry of rule R139 has been inserted: `pos` is the number of entries whose weight is not above its own. -/
def queueWith (e : QueueEntry) (queue : List QueueEntry) : List QueueEntry :=
  let pos := (queue.filter (fun x => decide (x.weight ≤ e.weight))).length
  queue.take pos ++ e :: queue.drop pos

/-- `MergeSteps k queue arena queue' arena'`: `k` merge steps of rule R139 lead from `queue` and `arena` to `queue'` and `arena'`. Each
takes the first two entries `a` and `b`, allocates the node with children `a` (left) and `b` (right) in the slot `ATOP`, and inserts it
with the sum of their weights. -/
inductive MergeSteps : Nat → List QueueEntry → List Node → List QueueEntry → List Node → Prop
  | done (queue : List QueueEntry) (arena : List Node) : MergeSteps 0 queue arena queue arena
  | merge {k : Nat} {a b : QueueEntry} {rest queue' : List QueueEntry} {arena arena' : List Node} :
      MergeSteps k (queueWith ⟨a.weight + b.weight, BitVec.ofNat 9 arena.length⟩ rest)
        (arena ++ [.internal a.node b.node]) queue' arena' →
      MergeSteps (k + 1) (a :: b :: rest) arena queue' arena'

/-- The symbols that have a code, in ascending order (rule R164). -/
def codedSymbols (s : State) : List Byte :=
  allSymbols.filter (fun sym => decide (s.readCode sym ≠ []))

/-- What BWT.FWD and then MTF.ENC make of a byte sequence: the recoded symbols that BIT.PACK encodes (rule R220). -/
def recoded (bytes : List Byte) : List Byte :=
  mtfEncode (permutedBytes bytes (suffixSort bytes))

/-- A `get` action (rule R193). -/
def isGet (a : HostAction) : Bool :=
  match a with
  | .getW => true
  | .getWlen => true
  | .getWByte _ => true
  | .getCount _ => true
  | .getStart => true
  | .getDlen => true
  | .getStatus => true
  | .getNode _ => true
  | .getRoot => true
  | .getAtop => true
  | .getCode _ => true
  | .getFlags => true
  | .getCfg => true
  | .issue _ => false
  | .putW _ => false
  | .putCount _ _ => false
  | .putStart _ => false
  | .putDlen _ => false
  | .hardwareReset => false

/-- A host action that comes first on this idle block takes it in one step to `t`, while the other actions wait (rules R73, R193). -/
def StepTakes (s : State) (a : HostAction) (t : State) : Prop :=
  ∀ rest, step { s with pending := a :: rest } = .next { t with pending := rest }

/-- A host action that comes first on this idle block is answered with one reply, and changes nothing of the block. -/
def Answers (s : State) (a : HostAction) (r : Reply) : Prop :=
  StepTakes s a { s with replies := r :: s.replies }

/-- No hardware reset arrives at this step (rule R263). -/
def NoReset (s : State) : Prop := ∀ rest, s.pending ≠ .hardwareReset :: rest

end Sys2Proof
end

