-- ==== Sys2Proof/Certificates/Slice0/Obligations.lean ====
section
/-! DEFINITION. The statements about the block, one `def` each. A statement about an instruction's result gives the whole next state,
so that it is that instruction's frame as well: every element not named keeps its value (rules R26, R243). Rule numbers are those
of spec/. -/

open Sys2Proof Sys2Proof.Machine

/-! ## Reset and the step -/

/-- R47: after power-on reset of a block of any capacities, and after SYS.RST from any state, every element has the value of rule
R47's table; the capacities are not affected (R34). SYS.RST always succeeds (R190). -/
def Obligations.ResetGivesTableOfResetValues : Prop :=
  (∀ (wcap : Long) (acap : NodeIx), HasResetValues wcap acap (State.resetOf wcap acap)) ∧
  ∀ s : State, ∃ t, exec .sysRst s = .next t ∧ HasResetValues s.cfgWcap s.cfgAcap t

/-- R263: a hardware reset that arrives at any time, also while a command is running, leaves the reset state, and no `STATUS` is
reported for the abandoned command. That a reset is the head of `pending`, and that the host's view is `replies`, is the model's
(notes/assumptions/3.md, 5.md). -/
def Obligations.HardwareResetAbandonsCommand : Prop :=
  ∀ (s : State) (rest : List HostAction), s.pending = .hardwareReset :: rest →
    ∃ t, step s = .next t ∧ HasResetValues s.cfgWcap s.cfgAcap t ∧ t.pending = rest ∧ t.replies = s.replies

/-- The invariant holds after reset, for all capacities of rules R7 and R8 (the parts of it that are the spec's own inferences:
R16, R40). -/
def Obligations.ResetMeetsInvariant : Prop :=
  ∀ (wcap : Long) (acap : NodeIx), 1 ≤ wcap.toNat → 1 ≤ acap.toNat → Inv (State.resetOf wcap acap)

/-- Every step keeps the invariant: the capacities bound `W` and `ARENA`, `STATUS` stays legal, a valid tree has the form of rule R40
and `CODE` is the table of the current tree or empty (R31, R33; the form of the tree is the spec's own inference R40). -/
def Obligations.StepKeepsInvariant : Prop :=
  ∀ s t : State, Inv s → step s = .next t → Inv t

/-- From a state that meets the invariant, every step goes on: the block never hangs or stops (R278, the spec's own inference). -/
def Obligations.StepAlwaysGoesOn : Prop :=
  ∀ s : State, Inv s → ∃ t, step s = .next t

/-- When a command has been accepted and its word decodes to a command, the step is `exec` of that command, with the response to
`issue`, the new `STATUS`, added to what the host is told (R192; the field `replies` and the step of its own in which the word was
accepted are the model's, notes/assumptions/3.md, 4.md). -/
def Obligations.StepRunsDecodedCommand : Prop :=
  ∀ (s : State) (word : Byte) (i : Instr), s.cmd = some word → NoReset s →
    decode [word] = .ok (i, []) →
    i.WellFormed = true ∧
    (∀ t, exec i s = .next t → step s = .next { t with replies := .completed t.status :: t.replies }) ∧
    (∀ f, exec i s = .fault f → step s = .fault f) ∧
    (∀ r, exec i s = .refused r → step s = .refused r)

/-- R86, R240: a word outside the command table sets `STATUS` to 10 and changes nothing else; the host gets the response (the field
`replies` is the model's, notes/assumptions/3.md). -/
def Obligations.IllegalWordSetsStatusTen : Prop :=
  ∀ (s : State) (word : Byte), s.cmd = some word → NoReset s →
    word ∉ [0x00#8, 0x10#8, 0x11#8, 0x20#8, 0x21#8, 0x30#8, 0x31#8, 0x40#8, 0x41#8] →
    step s = .next { s with status := 10#8, cmd := none, replies := .completed 10#8 :: s.replies }

/-- R85: the nine command words, each decoding to its command. -/
def Obligations.CommandWordsDecode : Prop :=
  decodeWord 0b00000000#8 = .ok .sysRst ∧ decodeWord 0b00010000#8 = .ok .bwtFwd ∧
  decodeWord 0b00010001#8 = .ok .bwtInv ∧ decodeWord 0b00100000#8 = .ok .mtfEnc ∧
  decodeWord 0b00100001#8 = .ok .mtfDec ∧ decodeWord 0b00110000#8 = .ok .hufBuild ∧
  decodeWord 0b00110001#8 = .ok .hufGen ∧ decodeWord 0b01000000#8 = .ok .bitPack ∧
  decodeWord 0b01000001#8 = .ok .bitUnpack

/-- R83, R86, R87: decoding is by the whole word; decode and encode agree in both directions, and exactly 247 words are illegal. -/
def Obligations.DecodeAndEncodeAgree : Prop :=
  (∀ (w : Byte) (i : Instr), decodeWord w = .ok i ↔ encodeWord i = w) ∧
  (allSymbols.filter (fun w => (decodeWord w).toOption.isNone)).length = 247

/-- R193: an action attempted while a command runs is held, not lost, refused or reordered (the list `pending` is the model's,
notes/assumptions/3.md). -/
def Obligations.ActionsAreHeldWhileBusy : Prop :=
  ∀ s t : State, s.busy = true → NoReset s → step s = .next t → t.pending = s.pending ∧ t.busy = false

/-- R73, R192: an idle block takes the first action that waits; `issue` of any word puts it into `CMD` and makes the block busy,
and changes nothing else (that acceptance is a step of its own is the model's, notes/assumptions/4.md). -/
def Obligations.IdleBlockAcceptsIssue : Prop :=
  ∀ (s : State) (word : Byte) (rest : List HostAction), s.cmd = none → s.pending = .issue word :: rest →
    ∃ t, step s = .next t ∧ t = { s with cmd := some word, pending := rest } ∧ t.busy = true

/-! ## The host port -/

/-- R195: `put_W` of at most `WCAP` bytes makes them the content of `W` and changes nothing else; a longer list is refused without
effect and the host is told so (by the model's reply `refused`, notes/assumptions/8.md). -/
def Obligations.PutWFitsOrIsRefused : Prop :=
  ∀ (s : State) (bytes : List Byte) (rest : List HostAction), s.cmd = none → s.pending = .putW bytes :: rest →
    step s = .next
      (if bytes.length ≤ s.cfgWcap.toNat then { s with w := bytes, pending := rest }
       else { s with pending := rest, replies := .refused :: s.replies })

/-- R196, R197, R198: on an idle block `put_COUNT`, `put_START` and `put_DLEN` take any value below 2^64 and change nothing else; a count
written is read back and every other count stays. R204: a value out of range is refused, without effect (by the model's reply
`refused`, notes/assumptions/3.md, 8.md). -/
def Obligations.PutsWriteTheirRegister : Prop :=
  ∀ (s : State) (sym : Byte), s.cmd = none →
    (∀ v : Long,
      StepTakes s (.putStart v.toNat) { s with start := v } ∧
      StepTakes s (.putDlen v.toNat) { s with dlen := v } ∧
      ∃ t, StepTakes s (.putCount sym v.toNat) t ∧ t.readCount sym = v ∧
        (∀ other, other ≠ sym → t.readCount other = s.readCount other) ∧ { t with count := s.count } = s) ∧
    (∀ v : Nat, 2 ^ 64 ≤ v →
      Answers s (.putStart v) .refused ∧ Answers s (.putDlen v) .refused ∧ Answers s (.putCount sym v) .refused)

/-- R71, R193, R194, R196 to R202: on an idle block a `get` has no side effect: it gives the host the one answer its rule says, and
changes nothing of the block. `get_W_byte(i)` is refused for `i >= WLEN` (R194), and an entry of `CODE` reads as `(0, 0)` while
`CODE_VALID` is 0 (R201). That the host is told through `replies`, and of a refusal by the reply `refused`, is the model's
(notes/assumptions/3.md, 8.md); `get_NODE` is the statement GetNodeReadsSlotOrIsRefused. -/
def Obligations.GetsChangeNothing : Prop :=
  ∀ s : State, s.cmd = none →
    Answers s .getW (.bytes s.w) ∧
    Answers s .getWlen (.long (BitVec.ofNat 64 s.w.length)) ∧
    (∀ i b, s.w[i]? = some b → Answers s (.getWByte i) (.byte b)) ∧
    (∀ i, s.w.length ≤ i → Answers s (.getWByte i) .refused) ∧
    (∀ sym, Answers s (.getCount sym) (.long (s.readCount sym))) ∧
    Answers s .getStart (.long s.start) ∧
    Answers s .getDlen (.long s.dlen) ∧
    Answers s .getStatus (.byte s.status) ∧
    Answers s .getRoot (.index s.root) ∧
    Answers s .getAtop (.index (BitVec.ofNat 9 s.arena.length)) ∧
    (∀ sym, Answers s (.getCode sym) (.code (codeEntry (s.readCode sym)).1 (codeEntry (s.readCode sym)).2)) ∧
    (Inv s → s.codeValid = false → ∀ sym, Answers s (.getCode sym) (.code 0#8 0#255)) ∧
    Answers s .getFlags (.byte s.flagsWord) ∧
    Answers s .getCfg (.cfg s.cfgWcap s.cfgAcap) ∧
    ∀ a, isGet a = true → ∃ r, Answers s a r

/-- R92: the 32-bit record of a node. -/
def Obligations.NodeRecordLayout : Prop :=
  (nodeRecord none).toNat = 0 ∧
  (∀ sym : Byte, (nodeRecord (some (.leaf sym))).toNat = 0x40000000 + sym.toNat) ∧
  (∀ l r : NodeIx, (nodeRecord (some (.internal l r))).toNat = 0x80000000 + l.toNat * 65536 + r.toNat)

/-- R200: on an idle block `get_NODE(i)` for `i < ACAP` answers the record of the slot, which at or above `ATOP` is that of `Empty`, and
`i >= ACAP` is refused; nothing of the block changes. That the host is told through `replies`, and of a refusal by the reply `refused`,
is the model's (notes/assumptions/3.md, 8.md). -/
def Obligations.GetNodeReadsSlotOrIsRefused : Prop :=
  ∀ (s : State) (i : Nat), s.cmd = none →
    Answers s (.getNode i)
      (if s.cfgAcap.toNat ≤ i then .refused
       else if s.arena.length ≤ i then .node 0#32
       else .node (nodeRecord s.arena[i]?))

/-- R93: a code entry of a path of at most 255 bits is its length and the number whose numeral of that length, most significant bit
first, is the path. -/
def Obligations.CodeEntryLayout : Prop :=
  ∀ path : Bits, path.length ≤ 255 →
    (codeEntry path).1.toNat = path.length ∧
    (codeEntry path).2.toNat < 2 ^ path.length ∧
    ∀ i, i < path.length → path[i]? = some ((codeEntry path).2.getLsbD (path.length - 1 - i))

/-- R94, R202: the flags word. -/
def Obligations.FlagsWordLayout : Prop :=
  ∀ s : State,
    s.flagsWord.toNat = s.treeValid.toNat + 2 * s.codeValid.toNat + 4 * s.busy.toNat

/-! ## All commands -/

/-- From a state that meets the invariant every command completes: it answers a next state (R278, the spec's own inference). -/
def Obligations.EveryCommandCompletes : Prop :=
  ∀ (i : Instr) (s : State), Inv s → ∃ t, exec i s = .next t ∧ t.busy = false

/-- R243, R71: a command that ends with an error changes `STATUS`, and with it `BUSY`, and nothing else; the codes are 1 to 10 (R33). -/
def Obligations.FailedCommandChangesStatusOnly : Prop :=
  ∀ (i : Instr) (s t : State), exec i s = .next t → t.status ≠ 0#8 →
    t = { s with status := t.status, cmd := none } ∧ t.status.toNat ≤ 10

/-- R26, R113, R128 and the "writes" column of R85: what each command leaves. No command but SYS.RST writes `COUNT`; only BWT.FWD and
SYS.RST write `START`, only BIT.PACK and SYS.RST write `DLEN`, only HUF.BUILD and SYS.RST write the arena, `ROOT` and `TREE_VALID`,
only these and HUF.GEN write `CODE` and `CODE_VALID`; the Huffman commands leave `W`; no command changes the capacities. That no
command, SYS.RST included, changes `pending` and `replies` is the model's choice (notes/assumptions/3.md). -/
def Obligations.CommandsWriteOnlyWhatTheirRulesList : Prop :=
  ∀ (i : Instr) (s t : State), exec i s = .next t →
    (i ≠ .sysRst → t.count = s.count) ∧
    (i ∉ [Instr.sysRst, .bwtFwd] → t.start = s.start) ∧
    (i ∉ [Instr.sysRst, .bitPack] → t.dlen = s.dlen) ∧
    (i ∉ [Instr.sysRst, .hufBuild] → t.arena = s.arena ∧ t.root = s.root ∧ t.treeValid = s.treeValid) ∧
    (i ∉ [Instr.sysRst, .hufBuild, .hufGen] → t.code = s.code ∧ t.codeValid = s.codeValid) ∧
    (i ∈ [Instr.hufBuild, .hufGen] → t.w = s.w) ∧
    t.cfgWcap = s.cfgWcap ∧ t.cfgAcap = s.cfgAcap ∧
    t.pending = s.pending ∧ t.replies = s.replies ∧ t.cmd = none

/-- R21: the BWT and MTF commands leave `WLEN` unchanged, success or not. -/
def Obligations.TransformsKeepLength : Prop :=
  ∀ (i : Instr) (s t : State), i ∈ [Instr.bwtFwd, .bwtInv, .mtfEnc, .mtfDec] → exec i s = .next t →
    t.w.length = s.w.length

/-- R30: `TREE_VALID` is cleared only by SYS.RST and by reset. -/
def Obligations.TreeValidClearedOnlyByReset : Prop :=
  ∀ s t : State, step s = .next t → s.treeValid = true → t.treeValid = false →
    (∃ rest, s.pending = .hardwareReset :: rest) ∨ s.cmd = some 0x00#8


/-! ## The BWT unit -/

/-- R101, R102: exactly one sequence is a suffix order of the bytes, the result of `suffix_sort`; it begins with the empty suffix. -/
def Obligations.SuffixOrderIsUnique : Prop :=
  ∀ bytes : List Byte,
    (∀ sa, IsSuffixOrder bytes sa ↔ sa = suffixSort bytes) ∧
    (suffixSort bytes)[0]? = some bytes.length

/-- R103, R104: on a non-empty buffer BWT.FWD succeeds; `START` is the row of suffix 0 and `W` the bytes before the other suffixes in
their order; nothing else changes. -/
def Obligations.BwtFwdPermutesBySuffixOrder : Prop :=
  ∀ s : State, s.w ≠ [] → s.w.length ≤ s.cfgWcap.toNat →
    ∃ sa p permuted, IsSuffixOrder s.w sa ∧ sa[p]? = some 0 ∧
      exec .bwtFwd s =
        .next { s with w := permuted, start := BitVec.ofNat 64 p, status := 0#8, cmd := none } ∧
      (BitVec.ofNat 64 p : Long).toNat = p ∧
      permuted.length = s.w.length ∧
      ∀ k, k < s.w.length → ∃ j, sa[if k < p then k else k + 1]? = some j ∧ 1 ≤ j ∧ permuted[k]? = s.w[j - 1]?

/-- R105 and R106, the spec's own inferences from R101, R103 and R104: after a successful BWT.FWD `1 <= START <= n`, and the new `W` is a rearrangement of the old. -/
def Obligations.BwtFwdStartInRangeAndRearranges : Prop :=
  ∀ s : State, s.w ≠ [] → s.w.length ≤ s.cfgWcap.toNat →
    ∃ t, exec .bwtFwd s = .next t ∧ t.status = 0#8 ∧
      1 ≤ t.start.toNat ∧ t.start.toNat ≤ s.w.length ∧
      t.w.length = s.w.length ∧ ∀ b : Byte, t.w.count b = s.w.count b

/-- R104, R108, R231: BWT.FWD and BWT.INV on an empty buffer raise EmptyInput, whatever `START` is. -/
def Obligations.BwtEmptyBufferRaisesEmptyInput : Prop :=
  ∀ s : State, s.w = [] →
    exec .bwtFwd s = .next { s with status := 1#8, cmd := none } ∧
    exec .bwtInv s = .next { s with status := 1#8, cmd := none }

/-- R109: `T` holds the pairs of each byte with its position, bytes ascending and equal bytes with ascending positions. -/
def Obligations.InverseTableIsStablySorted : Prop :=
  ∀ l : List Byte,
    (inversePairs l).Perm l.zipIdx ∧
    (inversePairs l).Pairwise
      (fun a b => a.1.toNat < b.1.toNat ∨ (a.1 = b.1 ∧ a.2 < b.2))

/-- R110, the spec's own inference from R101, R103 and R109: the walk from row `p` visits no row twice and reaches row 0 after some `m` steps, `1 <= m <= n`; the input is accepted exactly
when `m = n`. -/
def Obligations.InverseWalkReachesRowZeroOnce : Prop :=
  ∀ (l : List Byte) (p : Nat), 1 ≤ p → p ≤ l.length →
    ∃ m, 1 ≤ m ∧ m ≤ l.length ∧ walkRow l p m = 0 ∧
      (∀ j, j < m → 1 ≤ walkRow l p j ∧ walkRow l p j ≤ l.length) ∧
      (∀ i j, i < j → j < m → walkRow l p i ≠ walkRow l p j) ∧
      ((inverseBwt p l).isSome = true ↔ m = l.length)

/-- R108, and of R110 that every row is visited once: with `START` in `1..n` and a walk that is accepted, BWT.INV succeeds and replaces `W` by what the walk emits, a
rearrangement of `W`; `START` and everything else keep their values. -/
def Obligations.BwtInvReplacesWByTheWalk : Prop :=
  ∀ (s : State) (out : List Byte), s.w ≠ [] → 1 ≤ s.start.toNat → s.start.toNat ≤ s.w.length →
    inverseBwt s.start.toNat s.w = some out →
    exec .bwtInv s = .next { s with w := out, status := 0#8, cmd := none } ∧ out.Perm s.w

/-- R108, R236: on a non-empty buffer BWT.INV raises InvalidBwtInput when `START` is outside `1..n`, and when the walk is not
accepted; nothing but `STATUS` changes. -/
def Obligations.BwtInvRejectsInvalidInput : Prop :=
  ∀ s : State, s.w ≠ [] →
    (s.start.toNat < 1 ∨ s.w.length < s.start.toNat ∨ inverseBwt s.start.toNat s.w = none) →
    exec .bwtInv s = .next { s with status := 6#8, cmd := none }

/-- R111: for every non-empty byte sequence, BWT.INV after BWT.FWD succeeds and restores it. -/
def Obligations.BwtRoundTrip : Prop :=
  ∀ s : State, s.w ≠ [] → s.w.length ≤ s.cfgWcap.toNat →
    ∃ t u, exec .bwtFwd s = .next t ∧ t.status = 0#8 ∧ exec .bwtInv t = .next u ∧ u.status = 0#8 ∧ u.w = s.w

/-! ## The MTF unit -/

/-- R122: MTF.ENC always succeeds and changes `W` only; the first occurrence of a byte encodes as the byte plus the number of distinct
greater bytes seen so far, a later one as the number of distinct bytes seen since the last. -/
def Obligations.MtfEncEmitsRecency : Prop :=
  ∀ s : State, ∃ out, exec .mtfEnc s = .next { s with w := out, status := 0#8, cmd := none } ∧
    out.length = s.w.length ∧
    (∀ (before after : List Byte) (b : Byte), s.w = before ++ b :: after → b ∉ before →
      (out[before.length]?).map BitVec.toNat =
        some (b.toNat + (before.dedup.filter (fun x => decide (b.toNat < x.toNat))).length)) ∧
    (∀ (before between after : List Byte) (b : Byte), s.w = before ++ b :: (between ++ b :: after) → b ∉ between →
      (out[before.length + 1 + between.length]?).map BitVec.toNat = some between.dedup.length)

/-- R123, R125: MTF.DEC always succeeds and changes `W` only, and what it emits is the sequence that MTF.ENC turns into its input. -/
def Obligations.MtfDecInvertsEncoding : Prop :=
  ∀ s : State, ∃ out t, exec .mtfDec s = .next { s with w := out, status := 0#8, cmd := none } ∧
    out.length = s.w.length ∧ exec .mtfEnc { s with w := out } = .next t ∧ t.w = s.w

/-- R125: MTF.ENC followed by MTF.DEC restores `W`, and MTF.DEC followed by MTF.ENC restores it too, also when it is empty. -/
def Obligations.MtfRoundTrip : Prop :=
  ∀ s : State,
    (∃ t u, exec .mtfEnc s = .next t ∧ exec .mtfDec t = .next u ∧ u.w = s.w ∧ u.status = 0#8) ∧
    (∃ t u, exec .mtfDec s = .next t ∧ exec .mtfEnc t = .next u ∧ u.w = s.w ∧ u.status = 0#8)

/-- R120, R124: at the end of a sequence and of its encoding the two lists are equal, and the list is a permutation of the symbols. -/
def Obligations.MtfListsStayMirrored : Prop :=
  ∀ input : List Byte,
    (mtfDecodeFrom identityList (mtfEncode input)).2 = (mtfEncodeFrom identityList input).2 ∧
    (mtfEncodeFrom identityList input).2.Perm allSymbols

/-- R126: with `WLEN = 0` both MTF commands succeed and leave `W` empty. -/
def Obligations.MtfEmptyBufferSucceeds : Prop :=
  ∀ s : State, s.w = [] →
    exec .mtfEnc s = .next { s with status := 0#8, cmd := none } ∧
    exec .mtfDec s = .next { s with status := 0#8, cmd := none }

/-! ## The Huffman tree builder -/

/-- R136: the checks of HUF.BUILD on the number of symbols with a count: none is EmptyInput, one is DegenerateAlphabet, and too many for
the arena is AllocationExhausted; nothing but `STATUS` changes, so an earlier tree and code table stay. -/
def Obligations.HufBuildChecks : Prop :=
  ∀ s : State,
    ((countedSymbols s).length = 0 → exec .hufBuild s = .next { s with status := 1#8, cmd := none }) ∧
    ((countedSymbols s).length = 1 → exec .hufBuild s = .next { s with status := 3#8, cmd := none }) ∧
    (2 ≤ (countedSymbols s).length → s.cfgAcap.toNat < 2 * (countedSymbols s).length - 1 →
      exec .hufBuild s = .next { s with status := 2#8, cmd := none })

/-- R137, R139, R142, R147, and R40 and R141, the spec's own inferences: over `n >= 2` symbols that fit the arena HUF.BUILD succeeds.
The arena and the root are what `n - 1` merge steps make of the queue at its start (its order is the statement QueueStartsSortedByCount)
and of the leaves, one for each symbol in ascending order; they are a tree over exactly these symbols. `TREE_VALID` is set, `CODE` and
`CODE_VALID` are cleared, and nothing else changes. -/
def Obligations.HufBuildBuildsTree : Prop :=
  ∀ s : State, 2 ≤ (countedSymbols s).length → 2 * (countedSymbols s).length - 1 ≤ s.cfgAcap.toNat →
    ∃ arena root weight,
      exec .hufBuild s =
        .next { s with
          arena := arena, root := root, treeValid := true, codeValid := false,
          code := Vector.replicate 256 [], status := 0#8, cmd := none } ∧
      TreeOver (countedSymbols s).length arena root ∧
      leafSymbols arena = countedSymbols s ∧
      MergeSteps ((countedSymbols s).length - 1)
        (initialQueue ((countedSymbols s).map (fun sym => (sym, s.readCount sym))))
        ((countedSymbols s).map Node.leaf) [⟨weight, root⟩] arena

/-- R142, corner case: with two symbols the one of the smaller count is the left child, and on equal counts the smaller symbol. -/
def Obligations.HufBuildTwoSymbols : Prop :=
  ∀ (s : State) (a b : Byte), countedSymbols s = [a, b] → 3 ≤ s.cfgAcap.toNat →
    ∃ t, exec .hufBuild s = .next t ∧ t.status = 0#8 ∧ t.root = 2#9 ∧
      t.arena =
        [.leaf a, .leaf b,
          if (s.readCount a).toNat ≤ (s.readCount b).toNat then .internal 0#9 1#9 else .internal 1#9 0#9]

/-- R138: the queue starts as the leaves, one for each table entry, sorted ascending by count with the table order as the
tie-break. -/
def Obligations.QueueStartsSortedByCount : Prop :=
  ∀ table : List (Byte × Long), table.length ≤ 256 →
    (initialQueue table).length = table.length ∧
    (∀ j, j < table.length → ∃ e, table[j]? = some e ∧ ⟨e.2.toNat, BitVec.ofNat 9 j⟩ ∈ initialQueue table) ∧
    (initialQueue table).Pairwise
      (fun x y => x.weight < y.weight ∨ (x.weight = y.weight ∧ x.node.toNat < y.node.toNat))

/-- R140: in a queue sorted by weight the new entry goes to the position that is the number of entries whose weight is not above its own
(`queueWith`), and the queue stays sorted. -/
def Obligations.MergedEntryGoesAfterEquals : Prop :=
  ∀ (e : QueueEntry) (q : List QueueEntry), q.Pairwise (fun x y => x.weight ≤ y.weight) →
    insertAfter weightLe e q = queueWith e q ∧
    (queueWith e q).Pairwise (fun x y => x.weight ≤ y.weight)

/-- R148, the spec's own inference from R137 to R141: two builds from equal counts that both succeed give equal arenas and roots, whatever else the two blocks hold. -/
def Obligations.TreeIsDeterminedByCounts : Prop :=
  ∀ s s' t t' : State, s.count = s'.count → exec .hufBuild s = .next t → exec .hufBuild s' = .next t' →
    t.status = 0#8 → t'.status = 0#8 → t.arena = t'.arena ∧ t.root = t'.root ∧ t.atop = t'.atop

/-! ## The Huffman code generator -/

/-- R160, R161, and R164, the spec's own inference: with a valid tree HUF.GEN succeeds and writes `CODE` and `CODE_VALID` only: a symbol that has a leaf gets the turns
that lead to it, 1 to 255 of them, every leaf is reached, and any other symbol gets no code. -/
def Obligations.HufGenWritesPathsToLeaves : Prop :=
  ∀ s : State, Inv s → s.treeValid = true →
    ∃ code t, exec .hufGen s = .next t ∧
      t = { s with code := code, codeValid := true, status := 0#8, cmd := none } ∧
      (∀ (sym : Byte) (turns : Bits), LeadsToLeaf s.arena s.root turns sym →
        t.readCode sym = turns ∧ 1 ≤ turns.length ∧ turns.length ≤ 255) ∧
      (∀ sym ∈ leafSymbols s.arena, ∃ turns, LeadsToLeaf s.arena s.root turns sym) ∧
      (∀ sym ∉ leafSymbols s.arena, t.readCode sym = [])

/-- R166: without a tree HUF.GEN raises NotReady and changes nothing. -/
def Obligations.HufGenNeedsTree : Prop :=
  ∀ s : State, s.treeValid = false → exec .hufGen s = .next { s with status := 7#8, cmd := none }

/-- R165: while `CODE_VALID` is 1, different coded symbols have different codes, no code begins with another symbol's code, and the sum
of `2^(-len)` over the coded symbols is 1 (written with the common denominator `2^255`). -/
def Obligations.CodeIsPrefixFreeAndComplete : Prop :=
  ∀ s : State, Inv s → s.codeValid = true →
    (∀ a b : Byte, a ≠ b → s.readCode a ≠ [] → ¬ s.readCode a <+: s.readCode b) ∧
    ((codedSymbols s).map (fun sym => 2 ^ (255 - (s.readCode sym).length))).sum = 2 ^ 255

/-! ## The bit codec -/

/-- R170, R173 to R176: when every symbol of `W` has a code and the result fits, BIT.PACK succeeds: bit `8j + i` of the concatenated
codes, or 0 beyond their end, is bit `7 - i` of byte `j`, there are `(B + 7) div 8` bytes, `DLEN` is the number of symbols, and
nothing else changes. -/
def Obligations.BitPackPacksCodes : Prop :=
  ∀ s : State, s.codeValid = true → (∀ b ∈ s.w, s.readCode b ≠ []) →
    ((s.w.flatMap s.readCode).length + 7) / 8 ≤ s.cfgWcap.toNat →
    ∃ out, exec .bitPack s =
        .next { s with w := out, dlen := BitVec.ofNat 64 s.w.length, status := 0#8, cmd := none } ∧
      out.length = ((s.w.flatMap s.readCode).length + 7) / 8 ∧
      ∀ j i, j < out.length → i < 8 →
        (out[j]?).map (fun b => b.getLsbD (7 - i)) = some ((s.w.flatMap s.readCode).getD (8 * j + i) false)

/-- R171, R172, R241: the errors of BIT.PACK and their order: NotReady, then SymbolNotCoded, then CapacityExceeded. -/
def Obligations.BitPackErrorsInOrder : Prop :=
  ∀ s : State,
    (s.codeValid = false → exec .bitPack s = .next { s with status := 7#8, cmd := none }) ∧
    (s.codeValid = true → (∃ b ∈ s.w, s.readCode b = []) →
      exec .bitPack s = .next { s with status := 8#8, cmd := none }) ∧
    (s.codeValid = true → (∀ b ∈ s.w, s.readCode b ≠ []) →
      s.cfgWcap.toNat < ((s.w.flatMap s.readCode).length + 7) / 8 →
      exec .bitPack s = .next { s with status := 9#8, cmd := none })

/-- R178, the spec's own inference from R164: with `n` symbols packed, `n <= B <= 255 n`, and so `ceil(n/8) <= m <= ceil(255 n / 8)`. -/
def Obligations.PackedSizeIsBounded : Prop :=
  ∀ s : State, Inv s → s.codeValid = true → (∀ b ∈ s.w, s.readCode b ≠ []) →
    ((s.w.flatMap s.readCode).length + 7) / 8 ≤ s.cfgWcap.toNat →
    s.w.length ≤ (s.w.flatMap s.readCode).length ∧ (s.w.flatMap s.readCode).length ≤ 255 * s.w.length ∧
    ∃ t, exec .bitPack s = .next t ∧
      (s.w.length + 7) / 8 ≤ t.w.length ∧ t.w.length ≤ (255 * s.w.length + 7) / 8

/-- R66, R182: bit `8j + i` of the unpacked sequence is bit `7 - i` of byte `j`, and there are `8n` bits. -/
def Obligations.UnpackedBitsAreMsbFirst : Prop :=
  ∀ bytes : List Byte,
    (unpackBits bytes).length = 8 * bytes.length ∧
    ∀ j i, j < bytes.length → i < 8 →
      (unpackBits bytes)[8 * j + i]? = (bytes[j]?).map (fun b => b.getLsbD (7 - i))

/-- R181, R241: the tests of BIT.UNPACK before any decoding: NotReady, then CapacityExceeded; `CODE_VALID` is not consulted. -/
def Obligations.BitUnpackPreconditions : Prop :=
  ∀ s : State,
    (s.treeValid = false → exec .bitUnpack s = .next { s with status := 7#8, cmd := none }) ∧
    (s.treeValid = true → s.cfgWcap.toNat < s.dlen.toNat →
      exec .bitUnpack s = .next { s with status := 9#8, cmd := none })

/-- R180, R183, R184, R186: when the payload's bits begin with the turns to the leaves of `DLEN` symbols, BIT.UNPACK succeeds and `W` is
these symbols, whatever bits follow; nothing else changes, `DLEN` included. -/
def Obligations.BitUnpackDecodesLeadingCodes : Prop :=
  ∀ (s : State) (out : List Byte) (turns : Byte → Bits) (trailing : Bits),
    Inv s → s.treeValid = true → s.dlen.toNat ≤ s.cfgWcap.toNat → out.length = s.dlen.toNat →
    (∀ b ∈ out, LeadsToLeaf s.arena s.root (turns b) b) →
    unpackBits s.w = out.flatMap turns ++ trailing →
    exec .bitUnpack s = .next { s with w := out, status := 0#8, cmd := none }

/-- R185: when the bits end before `DLEN` symbols are out, it is TruncatedContainer if they end between two codes, and CorruptStream if
they end inside a code; nothing but `STATUS` changes. -/
def Obligations.BitUnpackRunsOutOfBits : Prop :=
  ∀ (s : State) (out : List Byte) (turns : Byte → Bits) (partialCode : Bits),
    Inv s → s.treeValid = true → s.dlen.toNat ≤ s.cfgWcap.toNat → out.length < s.dlen.toNat →
    (∀ b ∈ out, LeadsToLeaf s.arena s.root (turns b) b) →
    LeadsToInternal s.arena s.root partialCode →
    unpackBits s.w = out.flatMap turns ++ partialCode →
    exec .bitUnpack s = .next { s with status := if partialCode = [] then 4#8 else 5#8, cmd := none }

/-- R186: what follows the bits that are needed is never looked at: extra payload bytes do not change the result of a BIT.UNPACK that
succeeds. -/
def Obligations.TrailingPayloadIsIgnored : Prop :=
  ∀ (s t : State) (extra : List Byte), exec .bitUnpack s = .next t → t.status = 0#8 →
    exec .bitUnpack { s with w := s.w ++ extra } = .next t

/-- R187, the spec's own inference from R165, R170 and R180: when BIT.PACK succeeds with a table generated from the current tree, BIT.UNPACK with the same tree restores `W`. -/
def Obligations.PackUnpackRoundTrip : Prop :=
  ∀ s : State, Inv s → s.codeValid = true → (∀ b ∈ s.w, s.readCode b ≠ []) →
    ((s.w.flatMap s.readCode).length + 7) / 8 ≤ s.cfgWcap.toNat →
    ∃ t u, exec .bitPack s = .next t ∧ t.status = 0#8 ∧ t.dlen.toNat = s.w.length ∧
      exec .bitUnpack t = .next u ∧ u.status = 0#8 ∧ u.w = s.w

/-! ## The host-side procedures -/

/-- R88, R216, and R89 and R91, the spec's own inferences: a container that is put together is read back field by field, its header fields are least significant byte
first, and a byte string shorter than 16 bytes is TruncatedContainer. -/
def Obligations.ContainerRoundTrip : Prop :=
  (∀ c : Container, parseContainer (assembleContainer c) = .ok c) ∧
  (∀ (v : Long) (k : Nat), k < 8 → ((le64 v)[k]?).map BitVec.toNat = some (v.toNat / 256 ^ k % 256)) ∧
  (∀ bytes : List Byte, bytes.length < 16 → parseContainer bytes = .error .truncatedContainer)

/-- R210, R211, R212: `analyze` fails with EmptyInput on the empty sequence; otherwise its table has every occurring symbol once with
the number of its occurrences, symbols strictly ascending, every count at least 1, and the counts add up to the length. -/
def Obligations.AnalyzerCountsOccurrences : Prop :=
  analyze [] = .error .emptyInput ∧
  ∀ symbols : List Byte, symbols ≠ [] →
    ∃ table, analyze symbols = .ok table ∧
      (∀ s c, (s, c) ∈ table ↔ s ∈ symbols ∧ c = symbols.count s) ∧
      table.Pairwise (fun a b => a.1.toNat < b.1.toNat) ∧
      (∀ e ∈ table, 1 ≤ e.2) ∧
      (table.map (fun e => e.2)).sum = symbols.length

/-- R213: installing a table of at least two symbols that fits the arena, from any state of the block, succeeds and leaves
`TREE_VALID` and `CODE_VALID` set and the table in `COUNT`. A table with a count out of `put_COUNT`'s range (R196) is refused (R204); that
INSTALL ends there, with no command issued and nothing but counts written, is the model's choice (notes/assumptions/19.md). -/
def Obligations.InstallMakesReady : Prop :=
  ∀ (s : State) (table : List (Byte × Nat)), table.Pairwise (fun a b => a.1.toNat < b.1.toNat) →
    ((∀ e ∈ table, 1 ≤ e.2 ∧ e.2 < 2 ^ 64) → 2 ≤ table.length → 2 * table.length - 1 ≤ s.cfgAcap.toNat →
      ∃ t, install table s = .done t () ∧ t.treeValid = true ∧ t.codeValid = true ∧
        (∀ e ∈ table, (t.readCount e.1).toNat = e.2) ∧
        (∀ sym, sym ∉ table.map (fun e => e.1) → t.readCount sym = 0#64)) ∧
    ((∃ e ∈ table, 2 ^ 64 ≤ e.2) →
      ∃ t, install table s = .putRefused t ∧ { t with count := s.count } = s)

/-- R219 and the document's scenario of an empty buffer: `compress` of the empty sequence ends with EmptyInput and no container. -/
def Obligations.CompressOfNothingFails : Prop :=
  ∀ s : State, compress [] s = .failed { s with w := [], status := 1#8, cmd := none } 1#8

/-- R220, the document's full round trip with the spec's own inference of when it applies: for every non-empty sequence whose recoded symbols all have codes and which fits, `compress` gives a container, and
`decompress` of it, on any block that holds the same tree and is large enough, gives the sequence back. -/
def Obligations.PipelineRoundTrip : Prop :=
  ∀ (s : State) (bytes : List Byte), Inv s → s.codeValid = true → bytes ≠ [] →
    bytes.length ≤ s.cfgWcap.toNat → (∀ b ∈ recoded bytes, s.readCode b ≠ []) →
    (((recoded bytes).flatMap s.readCode).length + 7) / 8 ≤ s.cfgWcap.toNat →
    ∃ container t, compress bytes s = .done t container ∧
      ∀ s' : State, Inv s' → s'.treeValid = true → s'.arena = s.arena → s'.root = s.root →
        bytes.length ≤ s'.cfgWcap.toNat → container.length - 16 ≤ s'.cfgWcap.toNat →
        ∃ u, decompress container s' = .done u bytes
end

