-- ==== Sys2Proof/Laws/State.lean ====
section
/-! SUPPORT. What each named update of State does to each field, true by unfolding, so that no proof unfolds a record update. -/

namespace Sys2Proof.Machine

/-! ### `State.finish` -/

@[simp] theorem State.finish_w (s : State) (c : Byte) : (s.finish c).w = s.w := rfl

@[simp] theorem State.finish_start (s : State) (c : Byte) : (s.finish c).start = s.start := rfl

@[simp] theorem State.finish_dlen (s : State) (c : Byte) : (s.finish c).dlen = s.dlen := rfl

@[simp] theorem State.finish_arena (s : State) (c : Byte) : (s.finish c).arena = s.arena := rfl

@[simp] theorem State.finish_root (s : State) (c : Byte) : (s.finish c).root = s.root := rfl

@[simp] theorem State.finish_treeValid (s : State) (c : Byte) : (s.finish c).treeValid = s.treeValid := rfl

@[simp] theorem State.finish_codeValid (s : State) (c : Byte) : (s.finish c).codeValid = s.codeValid := rfl

@[simp] theorem State.finish_count (s : State) (c : Byte) : (s.finish c).count = s.count := rfl

@[simp] theorem State.finish_code (s : State) (c : Byte) : (s.finish c).code = s.code := rfl

@[simp] theorem State.finish_cmd (s : State) (c : Byte) : (s.finish c).cmd = none := rfl

@[simp] theorem State.finish_status (s : State) (c : Byte) : (s.finish c).status = c := rfl

@[simp] theorem State.finish_cfgWcap (s : State) (c : Byte) : (s.finish c).cfgWcap = s.cfgWcap := rfl

@[simp] theorem State.finish_cfgAcap (s : State) (c : Byte) : (s.finish c).cfgAcap = s.cfgAcap := rfl

@[simp] theorem State.finish_pending (s : State) (c : Byte) : (s.finish c).pending = s.pending := rfl

@[simp] theorem State.finish_replies (s : State) (c : Byte) : (s.finish c).replies = s.replies := rfl

/-! ### `State.reply` -/

@[simp] theorem State.reply_w (s : State) (r : Reply) : (s.reply r).w = s.w := rfl

@[simp] theorem State.reply_start (s : State) (r : Reply) : (s.reply r).start = s.start := rfl

@[simp] theorem State.reply_dlen (s : State) (r : Reply) : (s.reply r).dlen = s.dlen := rfl

@[simp] theorem State.reply_arena (s : State) (r : Reply) : (s.reply r).arena = s.arena := rfl

@[simp] theorem State.reply_root (s : State) (r : Reply) : (s.reply r).root = s.root := rfl

@[simp] theorem State.reply_treeValid (s : State) (r : Reply) : (s.reply r).treeValid = s.treeValid := rfl

@[simp] theorem State.reply_codeValid (s : State) (r : Reply) : (s.reply r).codeValid = s.codeValid := rfl

@[simp] theorem State.reply_count (s : State) (r : Reply) : (s.reply r).count = s.count := rfl

@[simp] theorem State.reply_code (s : State) (r : Reply) : (s.reply r).code = s.code := rfl

@[simp] theorem State.reply_cmd (s : State) (r : Reply) : (s.reply r).cmd = s.cmd := rfl

@[simp] theorem State.reply_status (s : State) (r : Reply) : (s.reply r).status = s.status := rfl

@[simp] theorem State.reply_cfgWcap (s : State) (r : Reply) : (s.reply r).cfgWcap = s.cfgWcap := rfl

@[simp] theorem State.reply_cfgAcap (s : State) (r : Reply) : (s.reply r).cfgAcap = s.cfgAcap := rfl

@[simp] theorem State.reply_pending (s : State) (r : Reply) : (s.reply r).pending = s.pending := rfl

@[simp] theorem State.reply_replies (s : State) (r : Reply) : (s.reply r).replies = r :: s.replies := rfl

/-! ### `State.resetBlock` -/

@[simp] theorem State.resetBlock_w (s : State) : (s.resetBlock).w = [] := rfl

@[simp] theorem State.resetBlock_start (s : State) : (s.resetBlock).start = 0#64 := rfl

@[simp] theorem State.resetBlock_dlen (s : State) : (s.resetBlock).dlen = 0#64 := rfl

@[simp] theorem State.resetBlock_arena (s : State) : (s.resetBlock).arena = [] := rfl

@[simp] theorem State.resetBlock_root (s : State) : (s.resetBlock).root = 0#9 := rfl

@[simp] theorem State.resetBlock_treeValid (s : State) : (s.resetBlock).treeValid = false := rfl

@[simp] theorem State.resetBlock_codeValid (s : State) : (s.resetBlock).codeValid = false := rfl

@[simp] theorem State.resetBlock_count (s : State) : (s.resetBlock).count = Vector.replicate 256 0#64 := rfl

@[simp] theorem State.resetBlock_code (s : State) : (s.resetBlock).code = emptyCode := rfl

@[simp] theorem State.resetBlock_cmd (s : State) : (s.resetBlock).cmd = none := rfl

@[simp] theorem State.resetBlock_status (s : State) : (s.resetBlock).status = 0#8 := rfl

@[simp] theorem State.resetBlock_cfgWcap (s : State) : (s.resetBlock).cfgWcap = s.cfgWcap := rfl

@[simp] theorem State.resetBlock_cfgAcap (s : State) : (s.resetBlock).cfgAcap = s.cfgAcap := rfl

@[simp] theorem State.resetBlock_pending (s : State) : (s.resetBlock).pending = s.pending := rfl

@[simp] theorem State.resetBlock_replies (s : State) : (s.resetBlock).replies = s.replies := rfl

/-! ### `State.flagTreeBuilt` -/

@[simp] theorem State.flagTreeBuilt_w (s : State) : (s.flagTreeBuilt).w = s.w := rfl

@[simp] theorem State.flagTreeBuilt_start (s : State) : (s.flagTreeBuilt).start = s.start := rfl

@[simp] theorem State.flagTreeBuilt_dlen (s : State) : (s.flagTreeBuilt).dlen = s.dlen := rfl

@[simp] theorem State.flagTreeBuilt_arena (s : State) : (s.flagTreeBuilt).arena = s.arena := rfl

@[simp] theorem State.flagTreeBuilt_root (s : State) : (s.flagTreeBuilt).root = s.root := rfl

@[simp] theorem State.flagTreeBuilt_treeValid (s : State) : (s.flagTreeBuilt).treeValid = true := rfl

@[simp] theorem State.flagTreeBuilt_codeValid (s : State) : (s.flagTreeBuilt).codeValid = false := rfl

@[simp] theorem State.flagTreeBuilt_count (s : State) : (s.flagTreeBuilt).count = s.count := rfl

@[simp] theorem State.flagTreeBuilt_code (s : State) : (s.flagTreeBuilt).code = emptyCode := rfl

@[simp] theorem State.flagTreeBuilt_cmd (s : State) : (s.flagTreeBuilt).cmd = s.cmd := rfl

@[simp] theorem State.flagTreeBuilt_status (s : State) : (s.flagTreeBuilt).status = s.status := rfl

@[simp] theorem State.flagTreeBuilt_cfgWcap (s : State) : (s.flagTreeBuilt).cfgWcap = s.cfgWcap := rfl

@[simp] theorem State.flagTreeBuilt_cfgAcap (s : State) : (s.flagTreeBuilt).cfgAcap = s.cfgAcap := rfl

@[simp] theorem State.flagTreeBuilt_pending (s : State) : (s.flagTreeBuilt).pending = s.pending := rfl

@[simp] theorem State.flagTreeBuilt_replies (s : State) : (s.flagTreeBuilt).replies = s.replies := rfl

/-! ### `State.flagCodeGenerated` -/

@[simp] theorem State.flagCodeGenerated_w (s : State) (code : Vector Bits 256) : (s.flagCodeGenerated code).w = s.w := rfl

@[simp] theorem State.flagCodeGenerated_start (s : State) (code : Vector Bits 256) : (s.flagCodeGenerated code).start = s.start := rfl

@[simp] theorem State.flagCodeGenerated_dlen (s : State) (code : Vector Bits 256) : (s.flagCodeGenerated code).dlen = s.dlen := rfl

@[simp] theorem State.flagCodeGenerated_arena (s : State) (code : Vector Bits 256) : (s.flagCodeGenerated code).arena = s.arena := rfl

@[simp] theorem State.flagCodeGenerated_root (s : State) (code : Vector Bits 256) : (s.flagCodeGenerated code).root = s.root := rfl

@[simp] theorem State.flagCodeGenerated_treeValid (s : State) (code : Vector Bits 256) : (s.flagCodeGenerated code).treeValid = s.treeValid := rfl

@[simp] theorem State.flagCodeGenerated_codeValid (s : State) (code : Vector Bits 256) : (s.flagCodeGenerated code).codeValid = true := rfl

@[simp] theorem State.flagCodeGenerated_count (s : State) (code : Vector Bits 256) : (s.flagCodeGenerated code).count = s.count := rfl

@[simp] theorem State.flagCodeGenerated_code (s : State) (code : Vector Bits 256) : (s.flagCodeGenerated code).code = code := rfl

@[simp] theorem State.flagCodeGenerated_cmd (s : State) (code : Vector Bits 256) : (s.flagCodeGenerated code).cmd = s.cmd := rfl

@[simp] theorem State.flagCodeGenerated_status (s : State) (code : Vector Bits 256) : (s.flagCodeGenerated code).status = s.status := rfl

@[simp] theorem State.flagCodeGenerated_cfgWcap (s : State) (code : Vector Bits 256) : (s.flagCodeGenerated code).cfgWcap = s.cfgWcap := rfl

@[simp] theorem State.flagCodeGenerated_cfgAcap (s : State) (code : Vector Bits 256) : (s.flagCodeGenerated code).cfgAcap = s.cfgAcap := rfl

@[simp] theorem State.flagCodeGenerated_pending (s : State) (code : Vector Bits 256) : (s.flagCodeGenerated code).pending = s.pending := rfl

@[simp] theorem State.flagCodeGenerated_replies (s : State) (code : Vector Bits 256) : (s.flagCodeGenerated code).replies = s.replies := rfl

/-! ### `State.writeCount` -/

@[simp] theorem State.writeCount_w (s : State) (sym : Byte) (c : Long) : (s.writeCount sym c).w = s.w := rfl

@[simp] theorem State.writeCount_start (s : State) (sym : Byte) (c : Long) : (s.writeCount sym c).start = s.start := rfl

@[simp] theorem State.writeCount_dlen (s : State) (sym : Byte) (c : Long) : (s.writeCount sym c).dlen = s.dlen := rfl

@[simp] theorem State.writeCount_arena (s : State) (sym : Byte) (c : Long) : (s.writeCount sym c).arena = s.arena := rfl

@[simp] theorem State.writeCount_root (s : State) (sym : Byte) (c : Long) : (s.writeCount sym c).root = s.root := rfl

@[simp] theorem State.writeCount_treeValid (s : State) (sym : Byte) (c : Long) : (s.writeCount sym c).treeValid = s.treeValid := rfl

@[simp] theorem State.writeCount_codeValid (s : State) (sym : Byte) (c : Long) : (s.writeCount sym c).codeValid = s.codeValid := rfl

@[simp] theorem State.writeCount_count (s : State) (sym : Byte) (c : Long) : (s.writeCount sym c).count = s.count.set sym.toNat c sym.isLt := rfl

@[simp] theorem State.writeCount_code (s : State) (sym : Byte) (c : Long) : (s.writeCount sym c).code = s.code := rfl

@[simp] theorem State.writeCount_cmd (s : State) (sym : Byte) (c : Long) : (s.writeCount sym c).cmd = s.cmd := rfl

@[simp] theorem State.writeCount_status (s : State) (sym : Byte) (c : Long) : (s.writeCount sym c).status = s.status := rfl

@[simp] theorem State.writeCount_cfgWcap (s : State) (sym : Byte) (c : Long) : (s.writeCount sym c).cfgWcap = s.cfgWcap := rfl

@[simp] theorem State.writeCount_cfgAcap (s : State) (sym : Byte) (c : Long) : (s.writeCount sym c).cfgAcap = s.cfgAcap := rfl

@[simp] theorem State.writeCount_pending (s : State) (sym : Byte) (c : Long) : (s.writeCount sym c).pending = s.pending := rfl

@[simp] theorem State.writeCount_replies (s : State) (sym : Byte) (c : Long) : (s.writeCount sym c).replies = s.replies := rfl

/-! ### `State.withCommand` -/

@[simp] theorem State.withCommand_w (s : State) (word : Byte) : (s.withCommand word).w = s.w := rfl

@[simp] theorem State.withCommand_start (s : State) (word : Byte) : (s.withCommand word).start = s.start := rfl

@[simp] theorem State.withCommand_dlen (s : State) (word : Byte) : (s.withCommand word).dlen = s.dlen := rfl

@[simp] theorem State.withCommand_arena (s : State) (word : Byte) : (s.withCommand word).arena = s.arena := rfl

@[simp] theorem State.withCommand_root (s : State) (word : Byte) : (s.withCommand word).root = s.root := rfl

@[simp] theorem State.withCommand_treeValid (s : State) (word : Byte) : (s.withCommand word).treeValid = s.treeValid := rfl

@[simp] theorem State.withCommand_codeValid (s : State) (word : Byte) : (s.withCommand word).codeValid = s.codeValid := rfl

@[simp] theorem State.withCommand_count (s : State) (word : Byte) : (s.withCommand word).count = s.count := rfl

@[simp] theorem State.withCommand_code (s : State) (word : Byte) : (s.withCommand word).code = s.code := rfl

@[simp] theorem State.withCommand_cmd (s : State) (word : Byte) : (s.withCommand word).cmd = some word := rfl

@[simp] theorem State.withCommand_status (s : State) (word : Byte) : (s.withCommand word).status = s.status := rfl

@[simp] theorem State.withCommand_cfgWcap (s : State) (word : Byte) : (s.withCommand word).cfgWcap = s.cfgWcap := rfl

@[simp] theorem State.withCommand_cfgAcap (s : State) (word : Byte) : (s.withCommand word).cfgAcap = s.cfgAcap := rfl

@[simp] theorem State.withCommand_pending (s : State) (word : Byte) : (s.withCommand word).pending = dropResets s.pending := rfl

@[simp] theorem State.withCommand_replies (s : State) (word : Byte) : (s.withCommand word).replies = s.replies := rfl

end Sys2Proof.Machine
end

