-- ==== Sys2Proof/Laws/Ops.lean ====
section
/-! SUPPORT. What the shared operations do: how a command ends, the spaces, the order of rule R13 and the stable sort of rule R14,
and the bit sequences of bytes. -/

namespace Sys2Proof.Machine

/-! ## How a command ends -/

theorem complete_eq (s : State) : complete s = .next { s with status := 0#8, cmd := none } := rfl

theorem raise_eq (k : ErrorKind) (s : State) :
    raise k s = .next { s with status := errorCode k, cmd := none } := rfl

theorem complete_next {s t : State} : complete s = .next t ↔ t = s.finish 0#8 := by
  simp [complete, eq_comm]

theorem raise_next {k : ErrorKind} {s t : State} : raise k s = .next t ↔ t = s.finish (errorCode k) := by
  simp [raise, eq_comm]

theorem errorCode_range (k : ErrorKind) : 1 ≤ (errorCode k).toNat ∧ (errorCode k).toNat ≤ 10 := by
  cases k <;> decide

theorem errorCode_ne_zero (k : ErrorKind) : errorCode k ≠ 0#8 := by
  cases k <;> decide

/-! ## The spaces -/

theorem allSymbols_length : allSymbols.length = 256 := by
  simp [allSymbols, Config.alphabet]

theorem allSymbols_getElem? (i : Nat) (h : i < 256) : allSymbols[i]? = some (BitVec.ofNat 8 i) := by
  simp [allSymbols, Config.alphabet, h]

theorem mem_allSymbols (b : Byte) : b ∈ allSymbols := by
  simp only [allSymbols, List.mem_map, List.mem_range, Config.alphabet]
  exact ⟨b.toNat, b.isLt, by simp⟩

theorem readCount_writeCount_same (s : State) (sym : Byte) (c : Long) :
    (s.writeCount sym c).readCount sym = c := by
  simp [State.readCount]

theorem readCount_writeCount_other (s : State) {sym other : Byte} (c : Long) (h : other ≠ sym) :
    (s.writeCount sym c).readCount other = s.readCount other := by
  have hne : sym.toNat ≠ other.toNat := fun e => h (BitVec.eq_of_toNat_eq e.symm)
  simp only [State.readCount, State.writeCount_count]
  exact Vector.getElem_set_ne sym.isLt other.isLt hne

@[simp] theorem emptyCode_getElem (i : Nat) (h : i < 256) : emptyCode[i] = [] := by
  simp [emptyCode]

/-! ## The stable sort -/

section Sorting

variable {α : Type} {le : α → α → Bool}

theorem insertAfter_perm (x : α) (l : List α) : (insertAfter le x l).Perm (x :: l) := by
  induction l with
  | nil => exact List.Perm.refl _
  | cons y ys ih =>
    simp only [insertAfter]
    split
    · exact (ih.cons y).trans (List.Perm.swap x y ys)
    · exact List.Perm.refl _

theorem insertAfter_length (x : α) (l : List α) : (insertAfter le x l).length = l.length + 1 := by
  simpa using (insertAfter_perm (le := le) x l).length_eq

theorem mem_insertAfter {x y : α} {l : List α} : y ∈ insertAfter le x l ↔ y = x ∨ y ∈ l := by
  simpa using (insertAfter_perm (le := le) x l).mem_iff (a := y)

/-- Inserting keeps a relation that holds between consecutive and so between all entries, when it holds from each entry that is not
above the new one to it, and from it to each entry that is. -/
theorem insertAfter_pairwise {r : α → α → Prop} (htrans : ∀ a b c, r a b → r b c → r a c) {x : α} {l : List α}
    (hle : ∀ y ∈ l, le y x = true → r y x) (hgt : ∀ y ∈ l, le y x = false → r x y) (hl : l.Pairwise r) :
    (insertAfter le x l).Pairwise r := by
  induction l with
  | nil => simp [insertAfter]
  | cons y ys ih =>
    obtain ⟨hy, hys⟩ := List.pairwise_cons.mp hl
    simp only [insertAfter]
    split
    · rename_i h
      refine List.pairwise_cons.mpr ⟨?_, ih (fun z hz => hle z (by simp [hz])) (fun z hz => hgt z (by simp [hz])) hys⟩
      intro z hz
      rcases mem_insertAfter.mp hz with rfl | hz
      · exact hle y (by simp) h
      · exact hy z hz
    · rename_i h
      have hxy : r x y := hgt y (by simp) (by simpa using h)
      refine List.pairwise_cons.mpr ⟨?_, hl⟩
      intro z hz
      rcases List.mem_cons.mp hz with rfl | hz
      · exact hxy
      · exact htrans _ _ _ hxy (hy z hz)

theorem foldl_insertAfter_perm (l acc : List α) :
    (l.foldl (fun sorted x => insertAfter le x sorted) acc).Perm (acc ++ l) := by
  induction l generalizing acc with
  | nil => simp
  | cons x xs ih =>
    simp only [List.foldl_cons]
    refine (ih _).trans ?_
    exact ((insertAfter_perm x acc).append_right xs).trans List.perm_middle.symm

/-- The stable sort is a rearrangement (rule R14). -/
theorem stableSort_perm (l : List α) : (stableSort le l).Perm l := by
  simpa [stableSort] using foldl_insertAfter_perm (le := le) l []

theorem stableSort_length (l : List α) : (stableSort le l).length = l.length :=
  (stableSort_perm l).length_eq

theorem mem_stableSort {x : α} {l : List α} : x ∈ stableSort le l ↔ x ∈ l :=
  (stableSort_perm l).mem_iff

theorem stableSort_append_one (l : List α) (x : α) :
    stableSort le (l ++ [x]) = insertAfter le x (stableSort le l) := by
  simp [stableSort]

/-- The stable sort puts the elements in any transitive relation that holds from an element to every later one that is not below
it, and from an element to every earlier one that is above it. -/
theorem stableSort_pairwise {r : α → α → Prop} (htrans : ∀ a b c, r a b → r b c → r a c) {l : List α}
    (hl : l.Pairwise (fun a b => (le a b = true → r a b) ∧ (le a b = false → r b a))) :
    (stableSort le l).Pairwise r := by
  induction l using List.reverseRecOn with
  | nil => simp [stableSort]
  | append_singleton xs x ih =>
    rw [stableSort_append_one]
    obtain ⟨h1, -, h2⟩ := List.pairwise_append.mp hl
    refine insertAfter_pairwise htrans ?_ ?_ (ih h1)
    · intro y hy h
      exact (h2 y (mem_stableSort.mp hy) x (by simp)).1 h
    · intro y hy h
      exact (h2 y (mem_stableSort.mp hy) x (by simp)).2 h

end Sorting

/-! ## The lexicographic order -/

theorem lexLt_irrefl (a : List Byte) : lexLt a a = false := by
  induction a with
  | nil => rfl
  | cons x xs ih => simp [lexLt, ih]

theorem lexLt_trans {a b c : List Byte} (h1 : lexLt a b = true) (h2 : lexLt b c = true) : lexLt a c = true := by
  induction a generalizing b c with
  | nil =>
    cases c with
    | nil => cases b <;> simp [lexLt] at h2
    | cons => rfl
  | cons x xs ih =>
    cases b with
    | nil => simp [lexLt] at h1
    | cons y ys =>
      cases c with
      | nil => simp [lexLt] at h2
      | cons z zs =>
        simp only [lexLt, Bool.or_eq_true, Bool.and_eq_true, decide_eq_true_eq] at h1 h2 ⊢
        rcases h1 with h1 | ⟨rfl, h1⟩ <;> rcases h2 with h2 | ⟨rfl, h2⟩
        · exact .inl (by omega)
        · exact .inl h1
        · exact .inl h2
        · exact .inr ⟨rfl, ih h1 h2⟩

/-- Of two different sequences one is less than the other. -/
theorem lexLt_total {a b : List Byte} (h : a ≠ b) : lexLt a b = true ∨ lexLt b a = true := by
  induction a generalizing b with
  | nil =>
    cases b with
    | nil => exact absurd rfl h
    | cons => exact .inl rfl
  | cons x xs ih =>
    cases b with
    | nil => exact .inr rfl
    | cons y ys =>
      simp only [lexLt, Bool.or_eq_true, Bool.and_eq_true, decide_eq_true_eq]
      by_cases hxy : x = y
      · subst hxy
        rcases ih (b := ys) (fun e => h (by rw [e])) with h | h
        · exact .inl (.inr ⟨rfl, h⟩)
        · exact .inr (.inr ⟨rfl, h⟩)
      · have hne : x.toNat ≠ y.toNat := fun e => hxy (BitVec.eq_of_toNat_eq e)
        rcases Nat.lt_or_gt_of_ne hne with h | h
        · exact .inl (.inl h)
        · exact .inr (.inl h)

/-! ## Bit sequences and bytes -/

@[simp] theorem bitsOfByte_length (b : Byte) : (bitsOfByte b).length = 8 := rfl

@[simp] theorem packBytes_length (m : Nat) (bits : Bits) : (packBytes m bits).length = m := by
  induction m generalizing bits with
  | zero => rfl
  | succ k ih => simp [packBytes, ih]

theorem unpackBits_cons (b : Byte) (rest : List Byte) :
    unpackBits (b :: rest) = bitsOfByte b ++ unpackBits rest := rfl

theorem unpackBits_append (a b : List Byte) : unpackBits (a ++ b) = unpackBits a ++ unpackBits b := by
  simp [unpackBits]

end Sys2Proof.Machine
end

