-- ==== Sys2Proof/Laws/Commands.lean ====
section
/-! SUPPORT. What each command can do, once for each: if it answers a next state, then it ended with an error and changed `STATUS` only,
or it succeeded and the next state is the one named. The lengths of what the units produce stand before them. -/

namespace Sys2Proof.Machine

/-! ## The BWT unit -/

theorem suffixSort_perm (bytes : List Byte) : (suffixSort bytes).Perm (List.range (bytes.length + 1)) :=
  stableSort_perm _

theorem permutedBytes_length (bytes : List Byte) :
    (permutedBytes bytes (suffixSort bytes)).length = bytes.length := by
  have h : (permutedBytes bytes (suffixSort bytes)).Perm (permutedBytes bytes (List.range (bytes.length + 1))) :=
    (suffixSort_perm bytes).filterMap _
  rw [h.length_eq, permutedBytes, List.range_succ_eq_map, List.filterMap_cons]
  simp only [if_true, List.filterMap_map, List.length_filterMap_eq_countP]
  have hall : (List.range bytes.length).countP
      (fun x => ((fun i => if i = 0 then none else bytes[i - 1]?) ∘ Nat.succ) x |>.isSome) = bytes.length := by
    rw [List.countP_eq_length.mpr, List.length_range]
    intro x hx
    simpa using List.mem_range.mp hx
  exact hall

theorem inverseWalk_length {t : List (Byte × Nat)} {p n r : Nat} {out : List Byte}
    (h : inverseWalk t p n r = some out) : out.length = n := by
  induction n generalizing r out with
  | zero => simp only [inverseWalk, Option.some.injEq] at h; simp [← h]
  | succ k ih =>
    simp only [inverseWalk] at h
    split at h
    · cases h
    · split at h
      · obtain ⟨o, ho, rfl⟩ := Option.map_eq_some_iff.mp h
        simp [ih ho]
      · cases h

theorem inverseBwt_length {p : Nat} {l out : List Byte} (h : inverseBwt p l = some out) : out.length = l.length :=
  inverseWalk_length h

theorem execBwtFwd_cases {s t : State} (h : execBwtFwd s = .next t) :
    (∃ k, t = s.finish (errorCode k)) ∨
    (s.w ≠ [] ∧
      t = { s with
        w := permutedBytes s.w (suffixSort s.w)
        start := BitVec.ofNat 64 (startIndex (suffixSort s.w)), status := 0#8, cmd := none }) := by
  simp only [execBwtFwd] at h
  split at h
  · exact .inl ⟨_, raise_next.mp h⟩
  · rename_i hw
    exact .inr ⟨fun e => hw (by simp [e]), complete_next.mp h⟩

theorem execBwtInv_cases {s t : State} (h : execBwtInv s = .next t) :
    (∃ k, t = s.finish (errorCode k)) ∨
    (∃ out, s.w ≠ [] ∧ 1 ≤ s.start.toNat ∧ s.start.toNat ≤ s.w.length ∧
      inverseBwt s.start.toNat s.w = some out ∧ t = { s with w := out, status := 0#8, cmd := none }) := by
  simp only [execBwtInv] at h
  split at h
  · exact .inl ⟨_, raise_next.mp h⟩
  · rename_i hw
    split at h
    · exact .inl ⟨_, raise_next.mp h⟩
    · rename_i hr
      split at h
      · exact .inl ⟨_, raise_next.mp h⟩
      · rename_i out ho
        exact .inr ⟨out, fun e => hw (by simp [e]), by omega, by omega, ho, complete_next.mp h⟩

/-! ## The MTF unit -/

theorem mtfEncodeFrom_length (list input : List Byte) : (mtfEncodeFrom list input).1.length = input.length := by
  induction input generalizing list with
  | nil => rfl
  | cons b rest ih => simp [mtfEncodeFrom, ih]

theorem mtfDecodeFrom_length (list input : List Byte) : (mtfDecodeFrom list input).1.length = input.length := by
  induction input generalizing list with
  | nil => rfl
  | cons b rest ih => simp [mtfDecodeFrom, ih]

@[simp] theorem mtfEncode_length (input : List Byte) : (mtfEncode input).length = input.length :=
  mtfEncodeFrom_length _ _

@[simp] theorem mtfDecode_length (input : List Byte) : (mtfDecode input).length = input.length :=
  mtfDecodeFrom_length _ _

theorem execMtfEnc_eq (s : State) :
    execMtfEnc s = .next { s with w := mtfEncode s.w, status := 0#8, cmd := none } := rfl

theorem execMtfDec_eq (s : State) :
    execMtfDec s = .next { s with w := mtfDecode s.w, status := 0#8, cmd := none } := rfl

/-! ## The Huffman units -/

theorem mergeLoop_arena_length (k : Nat) (queue : List QueueEntry) (arena : List Node) :
    (mergeLoop k queue arena).2.length = arena.length + min k (queue.length - 1) := by
  induction k generalizing queue arena with
  | zero => simp [mergeLoop]
  | succ n ih =>
    match queue with
    | [] => simp [mergeLoop]
    | [_] => simp [mergeLoop]
    | a :: b :: rest =>
      simp only [mergeLoop, ih, List.length_append, insertAfter_length, List.length_cons, List.length_nil]
      omega

theorem initialQueue_length (table : List (Byte × Long)) : (initialQueue table).length = table.length := by
  simp [initialQueue, stableSort_length]

/-- A build allocates one node for each table entry and one for each merge step (rule R147). -/
theorem buildTree_arena_length (table : List (Byte × Long)) :
    (buildTree table).1.length = table.length + (table.length - 1) := by
  simp [buildTree, mergeLoop_arena_length, leavesOf, initialQueue_length]

theorem execHufBuild_cases {s t : State} (h : execHufBuild s = .next t) :
    (∃ k, t = s.finish (errorCode k)) ∨
    (2 ≤ s.freqTable.length ∧ 2 * s.freqTable.length - 1 ≤ s.cfgAcap.toNat ∧
      t = { s with
        arena := (buildTree s.freqTable).1, root := (buildTree s.freqTable).2
        treeValid := true, codeValid := false, code := emptyCode, status := 0#8, cmd := none }) := by
  simp only [execHufBuild] at h
  split at h
  · exact .inl ⟨_, raise_next.mp h⟩
  · split at h
    · exact .inl ⟨_, raise_next.mp h⟩
    · split at h
      · exact .inl ⟨_, raise_next.mp h⟩
      · exact .inr ⟨by omega, by omega, complete_next.mp h⟩

theorem execHufGen_cases {s t : State} (h : execHufGen s = .next t) :
    (∃ k, t = s.finish (errorCode k)) ∨
    (∃ code, s.treeValid = true ∧ codeTable s.arena s.root = some code ∧
      t = { s with code := code, codeValid := true, status := 0#8, cmd := none }) := by
  simp only [execHufGen] at h
  split at h
  · exact .inl ⟨_, raise_next.mp h⟩
  · rename_i hv
    split at h
    · rename_i code hc
      exact .inr ⟨code, by simpa using hv, hc, complete_next.mp h⟩
    · cases h

/-! ## The bit codec -/

theorem execBitPack_cases {s t : State} (h : execBitPack s = .next t) :
    (∃ k, t = s.finish (errorCode k)) ∨
    (s.codeValid = true ∧ bytesFor (s.codedBits s.w).length ≤ s.cfgWcap.toNat ∧
      t = { s with
        w := packBytes (bytesFor (s.codedBits s.w).length) (s.codedBits s.w)
        dlen := BitVec.ofNat 64 s.w.length, status := 0#8, cmd := none }) := by
  simp only [execBitPack] at h
  split at h
  · exact .inl ⟨_, raise_next.mp h⟩
  · rename_i hv
    split at h
    · exact .inl ⟨_, raise_next.mp h⟩
    · split at h
      · exact .inl ⟨_, raise_next.mp h⟩
      · exact .inr ⟨by simpa using hv, by omega, complete_next.mp h⟩

theorem emit_done {sym : Byte} {e : WalkEnd} {out : List Byte} (h : e.emit sym = .done out) :
    ∃ rest, e = .done rest ∧ out = sym :: rest := by
  cases e <;> simp_all [WalkEnd.emit]

/-- A walk that ends well has produced as many symbols as it was asked for (rule R184). -/
theorem unpackWalk_length {arena : List Node} {root cur : NodeIx} {bits : Bits} {need : Nat} {out : List Byte}
    (h : unpackWalk arena root bits cur need = .done out) : out.length = need := by
  induction bits generalizing cur need out with
  | nil =>
    cases need with
    | zero => simp only [unpackWalk, WalkEnd.done.injEq] at h; simp [← h]
    | succ n => simp [unpackWalk] at h
  | cons b rest ih =>
    cases need with
    | zero => simp only [unpackWalk, WalkEnd.done.injEq] at h; simp [← h]
    | succ n =>
      simp only [unpackWalk] at h
      split at h
      · split at h
        · obtain ⟨o, ho, rfl⟩ := emit_done h
          simp [ih ho]
        · exact ih h
        · exact ih h
      · cases h
      · cases h

theorem execBitUnpack_cases {s t : State} (h : execBitUnpack s = .next t) :
    (∃ k, t = s.finish (errorCode k)) ∨
    (∃ out, s.treeValid = true ∧ s.dlen.toNat ≤ s.cfgWcap.toNat ∧
      unpackWalk s.arena s.root (unpackBits s.w) s.root s.dlen.toNat = .done out ∧
      t = { s with w := out, status := 0#8, cmd := none }) := by
  simp only [execBitUnpack] at h
  split at h
  · exact .inl ⟨_, raise_next.mp h⟩
  · rename_i hv
    split at h
    · exact .inl ⟨_, raise_next.mp h⟩
    · split at h
      · rename_i out ho
        exact .inr ⟨out, by simpa using hv, by omega, ho, complete_next.mp h⟩
      · exact .inl ⟨_, raise_next.mp h⟩
      · cases h

/-! ## The system command -/

theorem execSysRst_eq (s : State) : execSysRst s = .next s.resetBlock := rfl

end Sys2Proof.Machine
end

