-- ==== Sys2Proof/Laws/Memory.lean ====
section
/-! SUPPORT. The storage spaces keep their form: every command, every host action and every step keeps `Memory.wf`, and the state after
reset has it. -/

namespace Sys2Proof.Machine

theorem Memory.wf_iff {s : State} :
    Memory.wf s = true ↔ s.w.length ≤ s.cfgWcap.toNat ∧ s.arena.length ≤ s.cfgAcap.toNat := by
  simp [Memory.wf]

theorem Memory.wf_reset : Memory.wf State.reset = true := rfl

/-- The form depends on `W`, `ARENA` and the capacities only. -/
theorem Memory.wf_of_eq {s t : State} (hw : t.w = s.w) (ha : t.arena = s.arena) (hc : t.cfgWcap = s.cfgWcap)
    (hd : t.cfgAcap = s.cfgAcap) (h : Memory.wf s = true) : Memory.wf t = true := by
  simpa [Memory.wf, hw, ha, hc, hd] using h

theorem Memory.wf_finish {s : State} (c : Byte) (h : Memory.wf s = true) : Memory.wf (s.finish c) = true :=
  Memory.wf_of_eq rfl rfl rfl rfl h

theorem Memory.wf_resetBlock (s : State) : Memory.wf s.resetBlock = true := by
  simp [Memory.wf_iff]

theorem Memory.wf_exec {i : Instr} {s t : State} (h : Memory.wf s = true) (he : exec i s = .next t) :
    Memory.wf t = true := by
  obtain ⟨hw, ha⟩ := Memory.wf_iff.mp h
  cases i with
  | sysRst =>
    obtain rfl : s.resetBlock = t := by simpa [exec, execSysRst_eq] using he
    exact Memory.wf_resetBlock s
  | bwtFwd =>
    rcases execBwtFwd_cases he with ⟨k, rfl⟩ | ⟨-, rfl⟩
    · exact Memory.wf_finish _ h
    · exact Memory.wf_iff.mpr ⟨by simpa [permutedBytes_length] using hw, ha⟩
  | bwtInv =>
    rcases execBwtInv_cases he with ⟨k, rfl⟩ | ⟨out, -, -, -, ho, rfl⟩
    · exact Memory.wf_finish _ h
    · exact Memory.wf_iff.mpr ⟨by simpa [inverseBwt_length ho] using hw, ha⟩
  | mtfEnc =>
    obtain rfl := Host.Outcome.next.inj (he.symm.trans (execMtfEnc_eq s))
    exact Memory.wf_iff.mpr ⟨by simpa using hw, ha⟩
  | mtfDec =>
    obtain rfl := Host.Outcome.next.inj (he.symm.trans (execMtfDec_eq s))
    exact Memory.wf_iff.mpr ⟨by simpa using hw, ha⟩
  | hufBuild =>
    rcases execHufBuild_cases he with ⟨k, rfl⟩ | ⟨hn, hc, rfl⟩
    · exact Memory.wf_finish _ h
    · refine Memory.wf_iff.mpr ⟨hw, ?_⟩
      simp only [buildTree_arena_length]
      omega
  | hufGen =>
    rcases execHufGen_cases he with ⟨k, rfl⟩ | ⟨code, -, -, rfl⟩
    · exact Memory.wf_finish _ h
    · exact Memory.wf_iff.mpr ⟨hw, ha⟩
  | bitPack =>
    rcases execBitPack_cases he with ⟨k, rfl⟩ | ⟨-, hc, rfl⟩
    · exact Memory.wf_finish _ h
    · exact Memory.wf_iff.mpr ⟨by simpa using hc, ha⟩
  | bitUnpack =>
    rcases execBitUnpack_cases he with ⟨k, rfl⟩ | ⟨out, -, hc, ho, rfl⟩
    · exact Memory.wf_finish _ h
    · exact Memory.wf_iff.mpr ⟨by simpa [unpackWalk_length ho] using hc, ha⟩

theorem Memory.wf_performAction {a : HostAction} {s : State} (h : Memory.wf s = true) :
    Memory.wf (performAction a s) = true := by
  simp only [performAction]
  split
  · rename_i hr
    cases a with
    | putW bytes =>
      have hb : bytes.length ≤ s.cfgWcap.toNat := by simpa [inRange, HostAction.WellFormed] using hr
      exact Memory.wf_iff.mpr ⟨hb, (Memory.wf_iff.mp h).2⟩
    | hardwareReset => exact Memory.wf_resetBlock s
    | _ => exact Memory.wf_of_eq rfl rfl rfl rfl h
  · exact Memory.wf_of_eq rfl rfl rfl rfl h

end Sys2Proof.Machine
end

