-- ==== Sys2Proof/Laws/Step.lean ====
section
/-! SUPPORT. What a step can do, said once: a hardware reset, the completion of an accepted command, nothing, or one host action. -/

namespace Sys2Proof.Machine

theorem decodeWord_error_iff (w : Byte) :
    (∃ e, decodeWord w = .error e) ↔
      w ∉ [0x00#8, 0x10#8, 0x11#8, 0x20#8, 0x21#8, 0x30#8, 0x31#8, 0x40#8, 0x41#8] := by
  constructor
  · rintro ⟨e, he⟩ hw
    fin_cases hw <;> cases he
  · intro hw
    simp only [List.mem_cons, List.not_mem_nil, or_false, not_or] at hw
    obtain ⟨h0, h1, h2, h3, h4, h5, h6, h7, h8⟩ := hw
    have hm : w &&& 0xFF#8 = w := BitVec.and_allOnes
    exact ⟨illegalReason w, by simp [decodeWord, opTable, selectRow, hm, h0, h1, h2, h3, h4, h5, h6, h7, h8]⟩

theorem runWord_command {w : Byte} {i : Instr} (s : State) (h : decodeWord w = .ok i) : runWord w s = exec i s := by
  simp [runWord, h]

theorem runWord_illegal {w : Byte} {e : DecodeError} (s : State) (h : decodeWord w = .error e) :
    runWord w s = raise .illegalCommand s := by
  simp [runWord, h]

theorem respond_next {o : Host.Outcome State Fault Refusal} {t : State} :
    respond o = .next t ↔ ∃ u, o = .next u ∧ t = u.reply (.completed u.status) := by
  cases o <;> simp [respond, eq_comm]

theorem step_hardwareReset {s : State} {rest : List HostAction} (h : s.pending = .hardwareReset :: rest) :
    step s = .next ({ s with pending := rest } : State).resetBlock := by
  simp [step, advance, h]

theorem step_command {s : State} {word : Byte} (hn : ∀ rest, s.pending ≠ .hardwareReset :: rest)
    (h : s.cmd = some word) : step s = respond (runWord word s) := by
  simp only [step, advance]
  split
  · rename_i heq
    exact absurd heq (hn _)
  · rename_i heq _
    rw [h] at heq
    cases heq
    rfl
  · rename_i heq
    simp [h] at heq
  · rename_i heq
    simp [h] at heq

theorem step_idle {s : State} (hp : s.pending = []) (h : s.cmd = none) : step s = .next s := by
  simp [step, advance, hp, h]

theorem step_action {s : State} {a : HostAction} {rest : List HostAction} (hp : s.pending = a :: rest)
    (ha : a ≠ .hardwareReset) (h : s.cmd = none) :
    step s = .next (performAction a { s with pending := rest }) := by
  cases a <;> first | exact absurd rfl ha | simp [step, advance, hp, h]

/-- What a step that goes on can have done. -/
theorem step_cases {s t : State} (h : step s = .next t) :
    (∃ rest, s.pending = .hardwareReset :: rest ∧ t = ({ s with pending := rest } : State).resetBlock) ∨
    (∃ word u, (∀ rest, s.pending ≠ .hardwareReset :: rest) ∧ s.cmd = some word ∧ runWord word s = .next u ∧
      t = u.reply (.completed u.status)) ∨
    (s.pending = [] ∧ s.cmd = none ∧ t = s) ∨
    (∃ a rest, s.pending = a :: rest ∧ a ≠ .hardwareReset ∧ s.cmd = none ∧
      t = performAction a { s with pending := rest }) := by
  by_cases hr : ∃ rest, s.pending = .hardwareReset :: rest
  · obtain ⟨rest, hr⟩ := hr
    rw [step_hardwareReset hr, Host.Outcome.next.injEq] at h
    exact .inl ⟨rest, hr, h.symm⟩
  · have hn : ∀ rest, s.pending ≠ .hardwareReset :: rest := fun rest e => hr ⟨rest, e⟩
    right
    cases hc : s.cmd with
    | some word =>
      rw [step_command hn hc] at h
      obtain ⟨u, hu, rfl⟩ := respond_next.mp h
      exact .inl ⟨word, u, hn, rfl, hu, rfl⟩
    | none =>
      right
      cases hp : s.pending with
      | nil =>
        rw [step_idle hp hc, Host.Outcome.next.injEq] at h
        exact .inl ⟨rfl, rfl, h.symm⟩
      | cons a rest =>
        have ha : a ≠ .hardwareReset := fun e => hn rest (by rw [hp, e])
        rw [step_action hp ha hc, Host.Outcome.next.injEq] at h
        exact .inr ⟨a, rest, rfl, ha, rfl, hc ▸ h.symm⟩

/-- Every step keeps the storage spaces in their form. -/
theorem Memory.wf_step {s t : State} (h : Memory.wf s = true) (hs : step s = .next t) : Memory.wf t = true := by
  rcases step_cases hs with ⟨rest, -, rfl⟩ | ⟨word, u, -, -, hu, rfl⟩ | ⟨-, -, rfl⟩ | ⟨a, rest, -, -, -, rfl⟩
  · exact Memory.wf_resetBlock _
  · refine Memory.wf_of_eq (s := u) rfl rfl rfl rfl ?_
    cases hd : decodeWord word with
    | ok i => exact Memory.wf_exec h (runWord_command s hd ▸ hu)
    | error e =>
      obtain rfl := raise_next.mp (runWord_illegal s hd ▸ hu)
      exact Memory.wf_finish _ h
  · exact h
  · exact Memory.wf_performAction (Memory.wf_of_eq rfl rfl rfl rfl h)

/-- The step after a command word has been placed runs it. -/
theorem step_withFetchWord (s : State) (nbits w : Nat) :
    step (s.withFetchWord nbits w) =
      respond (runWord (BitVec.ofNat 8 (w % 2 ^ nbits)) (s.withFetchWord nbits w)) := by
  refine step_command (fun rest e => ?_) rfl
  have hd : ∀ (l rest : List HostAction), dropResets l ≠ .hardwareReset :: rest := by
    intro l
    induction l with
    | nil => simp [dropResets]
    | cons a l ih => cases a <;> simp [dropResets, ih]
  exact hd _ _ e

/-- An `issue` on an idle block takes two steps: the word is accepted, and then the command completes (rule R192). -/
theorem issue_two_steps {s : State} {word : Byte} {rest : List HostAction} (hp : s.pending = .issue word :: rest)
    (hc : s.cmd = none) (hn : ∀ more, rest ≠ .hardwareReset :: more) :
    step s = .next { s with cmd := some word, pending := rest } ∧
    step { s with cmd := some word, pending := rest } =
      respond (runWord word { s with cmd := some word, pending := rest }) :=
  ⟨step_action hp (by simp) hc, step_command hn rfl⟩

end Sys2Proof.Machine
end

