-- ==== Sys2Proof/Laws/HostProcs.lean ====
section
/-! SUPPORT. What a host action and one line of a host procedure can do, so that no proof about them unfolds the port. -/

namespace Sys2Proof.Machine

theorem performAction_inRange {a : HostAction} {s : State} (h : inRange a s = true) :
    performAction a s = acceptAction a s := by
  simp [performAction, h]

theorem performAction_outOfRange {a : HostAction} {s : State} (h : inRange a s = false) :
    performAction a s = s.reply .refused := by
  simp [performAction, h]

theorem hostPut_accepted {α : Type} {a : HostAction} {s : State} {next : State → ProcEnd α} (h : inRange a s = true) :
    hostPut a s next = next (acceptAction a s) := by
  simp [hostPut, h]

/-- Counts in range are all written. -/
theorem putCounts_inRange {α : Type} {next : State → ProcEnd α} :
    ∀ (entries : List (Byte × Nat)) (s : State), (∀ e ∈ entries, e.2 < 2 ^ 64) →
      putCounts entries s next = next (entries.foldl (fun t e => t.writeCount e.1 (BitVec.ofNat 64 e.2)) s)
  | [], _, _ => rfl
  | e :: rest, s, h => by
    have he : inRange (.putCount e.1 e.2) s = true := by
      simpa [inRange, HostAction.WellFormed] using h e (by simp)
    rw [putCounts, hostPut_accepted he]
    exact putCounts_inRange rest _ fun x hx => h x (List.mem_cons_of_mem e hx)

/-- A count out of range ends the procedure, with nothing but counts written. -/
theorem putCounts_outOfRange {α : Type} {next : State → ProcEnd α} :
    ∀ (entries : List (Byte × Nat)) (s : State), (∃ e ∈ entries, 2 ^ 64 ≤ e.2) →
      ∃ t, putCounts entries s next = .putRefused t ∧ { t with count := s.count } = s
  | [], _, h => by simp at h
  | e :: rest, s, h => by
    by_cases he : e.2 < 2 ^ 64
    · have hr : inRange (.putCount e.1 e.2) s = true := by simpa [inRange, HostAction.WellFormed] using he
      obtain ⟨x, hx, hge⟩ := h
      have hx : x ∈ rest := (List.mem_cons.mp hx).resolve_left fun q => by subst q; omega
      obtain ⟨t, ht, hc⟩ := putCounts_outOfRange (next := next) rest (acceptAction (.putCount e.1 e.2) s) ⟨x, hx, hge⟩
      refine ⟨t, by rw [putCounts, hostPut_accepted hr, ht], ?_⟩
      exact congrArg (fun u : State => { u with count := s.count }) hc
    · have hr : inRange (.putCount e.1 e.2) s = false := by simpa [inRange, HostAction.WellFormed] using he
      exact ⟨s, by simp [putCounts, hostPut, hr], rfl⟩

theorem runWord_encodeWord (i : Instr) (s : State) : runWord (encodeWord i) s = exec i s := by
  cases i <;> rfl

/-- A command that succeeds lets the procedure go on from the state it leaves. -/
theorem hostIssue_success {α : Type} {i : Instr} {s t : State} {next : State → ProcEnd α} (h : exec i s = .next t)
    (ht : t.status = 0#8) : hostIssue i s next = next t := by
  simp [hostIssue, runWord_encodeWord, h, ht]

/-- A command that fails ends the procedure with its code. -/
theorem hostIssue_failure {α : Type} {i : Instr} {s t : State} {next : State → ProcEnd α} (h : exec i s = .next t)
    (ht : t.status ≠ 0#8) : hostIssue i s next = .failed t t.status := by
  simp [hostIssue, runWord_encodeWord, h, ht]

end Sys2Proof.Machine
end

