-- ==== Sys2Proof/Laws/Claims.lean ====
section
/-! SUPPORT. Lemmas about the terms claims are stated in. -/

namespace Sys2Proof

open Sys2Proof.Machine

/-- `COUNT` as pairs, each symbol with its count. -/
theorem zip_count_eq (s : State) : allSymbols.zip s.count.toList = allSymbols.map (fun sym => (sym, s.readCount sym)) := by
  apply List.ext_getElem
  · simp [allSymbols_length]
  · intro i h1 h2
    have hi : i < 256 := by simpa [allSymbols_length] using h2
    have hs : allSymbols[i]'(by simpa [allSymbols_length] using hi) = BitVec.ofNat 8 i := by
      simp [allSymbols, Config.alphabet]
    simp [hs, State.readCount, Nat.mod_eq_of_lt hi]

/-- The frequency table is the counted symbols, each with its count (rules R37, R135). -/
theorem freqTable_eq (s : State) :
    s.freqTable = (countedSymbols s).map (fun sym => (sym, s.readCount sym)) := by
  simp only [State.freqTable, zip_count_eq, List.filter_map, countedSymbols]
  rfl

theorem countedSymbols_eq (s : State) : countedSymbols s = s.freqTable.map (fun e => e.1) := by
  simp [freqTable_eq, Function.comp_def]

theorem freqTable_length (s : State) : s.freqTable.length = (countedSymbols s).length := by
  simp [freqTable_eq]

theorem follow_append (arena : List Node) (i : NodeIx) (a b : Bits) :
    follow arena i (a ++ b) = (follow arena i a).bind (fun j => follow arena j b) := by
  induction a generalizing i with
  | nil => rfl
  | cons t rest ih =>
    simp only [List.cons_append, follow]
    split <;> simp [ih]

/-- What an action does to the block does not depend on the actions that wait behind it. -/
theorem performAction_pending (a : HostAction) (s : State) (rest : List HostAction) :
    performAction a { s with pending := rest } = { performAction a s with pending := rest } := by
  have hr : inRange a { s with pending := rest } = inRange a s := rfl
  cases h : inRange a s with
  | false => rw [performAction_outOfRange h, performAction_outOfRange (hr.trans h)]; rfl
  | true => rw [performAction_inRange h, performAction_inRange (hr.trans h)]; cases a <;> rfl

/-- An idle block takes the first action in one step, with its effect. -/
theorem stepTakes_performAction {s : State} {a : HostAction} (h : s.cmd = none) (ha : a ≠ .hardwareReset) :
    StepTakes s a (performAction a s) := fun rest =>
  (step_action (s := { s with pending := a :: rest }) rfl ha h).trans (congrArg _ (performAction_pending a s rest))

/-- Every slot of an arena has a 9-bit index (rule R19). -/
theorem Inv.arena_lt {s : State} (h : Inv s) : s.arena.length < 512 :=
  Nat.lt_of_le_of_lt (Nat.le_trans h.arenaFits h.acapRange.2) (by omega)

/-- A length that fits the buffer fits a 64-bit register (rule R16). -/
theorem length_toNat {s : State} {n : Nat} (h : n ≤ s.cfgWcap.toNat) : (BitVec.ofNat 64 n : Long).toNat = n := by
  have := s.cfgWcap.isLt
  simp only [BitVec.toNat_ofNat]
  exact Nat.mod_eq_of_lt (by omega)

end Sys2Proof
end

