-- ==== Sys2Proof/Laws/PerInstr.lean ====
section
/-! SUPPORT. The statements made of every instruction: its words, in front of any others, decode to it and leave the others. -/

namespace Sys2Proof.Laws.Encoding

/-- A command is well formed, and decoding its words gives it back with what follows them (rules R80, R83). -/
def Statement (i : Instr) : Prop :=
  i.WellFormed = true ∧ ∀ rest, decode (encode i ++ rest) = .ok (i, rest)

theorem sysRst : Statement .sysRst := ⟨rfl, fun _ => rfl⟩

theorem bwtFwd : Statement .bwtFwd := ⟨rfl, fun _ => rfl⟩

theorem bwtInv : Statement .bwtInv := ⟨rfl, fun _ => rfl⟩

theorem mtfEnc : Statement .mtfEnc := ⟨rfl, fun _ => rfl⟩

theorem mtfDec : Statement .mtfDec := ⟨rfl, fun _ => rfl⟩

theorem hufBuild : Statement .hufBuild := ⟨rfl, fun _ => rfl⟩

theorem hufGen : Statement .hufGen := ⟨rfl, fun _ => rfl⟩

theorem bitPack : Statement .bitPack := ⟨rfl, fun _ => rfl⟩

theorem bitUnpack : Statement .bitUnpack := ⟨rfl, fun _ => rfl⟩

end Sys2Proof.Laws.Encoding
end

