-- ==== Sys2Proof/Tests/Slice0.lean ====
section
/-! SUPPORT. The model's own tests: expected results are those of 95_test_vectors.md (the vector is named in each comment) or of a
layout written out by hand from 30_encoding.md; and, for every statement with hypotheses, a concrete case that meets them. -/

namespace Sys2Proof.Tests

open Sys2Proof Sys2Proof.Machine

/-! ## Helpers -/

/-- The table at the end of `train`. -/
def seenTable (e : ProcEnd (List (Byte × Nat))) : Option (List (Byte × Nat)) :=
  match e with
  | .done _ table => some table
  | .failed _ _ => none
  | .putRefused _ => none
  | .stopped => none

/-- What a test looks at after a step: `STATUS`, `W`, `START`, `DLEN`. -/
def seen (o : Host.Outcome State Fault Refusal) : Option (Byte × List Byte × Long × Long) :=
  match o with
  | .next t => some (t.status, t.w, t.start, t.dlen)
  | .fault _ => none
  | .refused _ => none

/-- What a test looks at after HUF.BUILD: `STATUS`, the arena, `ROOT`, and the flags word. -/
def seenTree (o : Host.Outcome State Fault Refusal) : Option (Byte × List Node × NodeIx × Byte) :=
  match o with
  | .next t => some (t.status, t.arena, t.root, t.flagsWord)
  | .fault _ => none
  | .refused _ => none

/-- What a test looks at after HUF.GEN: `STATUS`, the flags word and the codes of some symbols. -/
def seenCodes (syms : List Byte) (o : Host.Outcome State Fault Refusal) : Option (Byte × Byte × List Bits) :=
  match o with
  | .next t => some (t.status, t.flagsWord, syms.map t.readCode)
  | .fault _ => none
  | .refused _ => none

/-- The reset state with a buffer. -/
def withW (w : List Byte) : State := { State.reset with w := w }

/-- The reset state with some counts. -/
def withCounts (table : List (Byte × Long)) : State :=
  table.foldl (fun s e => s.writeCount e.1 e.2) State.reset

/-- The counts of vector H1. -/
def abcCounts : List (Byte × Long) := [(65#8, 5#64), (66#8, 3#64), (67#8, 2#64)]

/-- The arena of vector H1. -/
def abcArena : List Node :=
  [.leaf 65#8, .leaf 66#8, .leaf 67#8, .internal 2#9 1#9, .internal 0#9 3#9]

/-- A block that holds the tree of vector H1 ("ABC tree") and no code table. -/
def abcTree : State := { withCounts abcCounts with arena := abcArena, root := 4#9, treeValid := true }

/-- A block on which the ABC tree and its code table are installed. -/
def abcState : State :=
  { abcTree with
    codeValid := true
    code := writeCodes [(65#8, [false]), (67#8, [true, false]), (66#8, [true, true])] }

/-- The ABC block with a buffer and a `DLEN`. -/
def abcWith (w : List Byte) (dlen : Long) : State := { abcState with w := w, dlen := dlen }

def banana : List Byte := [98#8, 97#8, 110#8, 97#8, 110#8, 97#8]

def annbaa : List Byte := [97#8, 110#8, 110#8, 98#8, 97#8, 97#8]

/-! ## Training -/

set_option maxRecDepth 20000 in
/-- Rule R218: `AAAA` is not degenerate. -/
theorem test_train_repeated_byte :
    seenTable (train [65#8, 65#8, 65#8, 65#8] State.reset) = some [(0#8, 3), (65#8, 1)] := by decide

set_option maxRecDepth 20000 in
/-- Rule R218: the two samples it calls degenerate. -/
theorem test_train_degenerate :
    seenTable (train [65#8] State.reset) = some [(65#8, 1)] ∧
    seenTable (train [0#8, 0#8, 0#8] State.reset) = some [(0#8, 3)] := by decide

set_option maxRecDepth 20000 in
/-- Vectors B4 and M12 with rules R210 and R217: `ab` becomes `ba` and then 98, 98 (notes/assumptions/20.md). -/
theorem test_train_ab : seenTable (train [97#8, 98#8] State.reset) = some [(98#8, 2)] := by decide

/-! ## Well-formedness and decoding -/

/-- Rule R195: a list longer than `WCAP` is refused (vector Y9). -/
theorem test_wf_putW_too_long :
    HostAction.WellFormed 4 511 0 (.putW [97#8, 98#8, 99#8, 100#8, 101#8]) = false := by decide

/-- Rules R196 to R198 and R204: the greatest value in range, and the least out of range. -/
theorem test_wf_puts :
    HostAction.WellFormed 4 511 0 (.putCount 0#8 18446744073709551615) = true ∧
    HostAction.WellFormed 4 511 0 (.putCount 0#8 18446744073709551616) = false ∧
    HostAction.WellFormed 4 511 0 (.putStart 18446744073709551616) = false ∧
    HostAction.WellFormed 4 511 0 (.putDlen 18446744073709551616) = false := by decide

/-- Rule R200: a node index at `ACAP` is refused. -/
theorem test_wf_getNode_at_acap : HostAction.WellFormed 4 511 0 (.getNode 511) = false := by decide

/-- Rule R194: an index at `WLEN` is refused. -/
theorem test_wf_getWByte_at_wlen : HostAction.WellFormed 4 511 3 (.getWByte 3) = false := by decide

/-- The words of rule R85, bit by bit: unit in bits 7:4, function in bits 3:0. -/
theorem test_decode_sysRst : decode [0b00000000#8] = .ok (.sysRst, []) := by decide

theorem test_decode_bwtFwd : decode [0b00010000#8] = .ok (.bwtFwd, []) := by decide

theorem test_decode_bwtInv : decode [0b00010001#8] = .ok (.bwtInv, []) := by decide

theorem test_decode_mtfEnc : decode [0b00100000#8] = .ok (.mtfEnc, []) := by decide

theorem test_decode_mtfDec : decode [0b00100001#8] = .ok (.mtfDec, []) := by decide

theorem test_decode_hufBuild : decode [0b00110000#8] = .ok (.hufBuild, []) := by decide

theorem test_decode_hufGen : decode [0b00110001#8] = .ok (.hufGen, []) := by decide

theorem test_decode_bitPack : decode [0b01000000#8] = .ok (.bitPack, []) := by decide

theorem test_decode_bitUnpack : decode [0b01000001#8] = .ok (.bitUnpack, []) := by decide

/-- Rule R82: a reserved function is rejected by name; rule R81: unit 5 does not exist. -/
theorem test_decode_rejects :
    decode [0x12#8] = .error (.reservedFn 1#4 2#4) ∧ decode [0x50#8] = .error (.noSuchUnit 5#4) ∧
    decode [] = .error .noWord := by decide

/-- No two rows of the command table overlap (rule R83). -/
theorem test_rows_do_not_overlap :
    opTable.Pairwise (fun a b => a.pattern &&& b.mask ≠ b.pattern) := by decide

theorem test_table_word : decodeTableWord 8 0x41 = some .bitUnpack ∧ decodeTableWord 8 0x42 = none := by decide

/-! ## Vectors -/

/-- Vector S2, as a step: the word is placed and the next step runs it. -/
theorem test_bwtFwd_banana :
    seen (step ((withW banana).withFetchWord 8 0x10)) = some (0#8, annbaa, 4#64, 0#64) := by decide

/-- Vector B16: bytes compare as unsigned numbers. -/
theorem test_bwtFwd_unsigned :
    seen (exec .bwtFwd (withW [128#8, 127#8])) = some (0#8, [127#8, 128#8], 2#64, 0#64) := by decide

/-- Vector V1. -/
theorem test_bwtInv_banana :
    seen (exec .bwtInv { withW annbaa with start := 4#64 }) = some (0#8, banana, 4#64, 0#64) := by decide

/-- Vector V17: the walk meets row 0 after 2 bytes. -/
theorem test_bwtInv_early_end :
    seen (exec .bwtInv { withW annbaa with start := 5#64 }) = some (6#8, annbaa, 5#64, 0#64) := by decide

set_option maxRecDepth 20000 in
/-- Vector M1. -/
theorem test_mtfEnc :
    seen (exec .mtfEnc (withW annbaa)) =
      some (0#8, [97#8, 110#8, 0#8, 99#8, 2#8, 0#8], 0#64, 0#64) := by decide

/-- Vector M17: index 255 twice. -/
theorem test_mtfDec :
    seen (exec .mtfDec (withW [255#8, 255#8])) = some (0#8, [255#8, 254#8], 0#64, 0#64) := by decide

set_option maxRecDepth 20000 in
/-- Vector M7: the list at the end begins 98, 97, 99, 114, 100, 0. -/
theorem test_mtf_list :
    ((mtfEncodeFrom identityList
      [97#8, 114#8, 100#8, 114#8, 99#8, 97#8, 97#8, 97#8, 97#8, 98#8, 98#8]).2.take 6) =
      [98#8, 97#8, 99#8, 114#8, 100#8, 0#8] := by decide

/-- Vector H1. -/
theorem test_hufBuild_abc :
    seenTree (exec .hufBuild (withCounts abcCounts)) = some (0#8, abcArena, 4#9, 1#8) := by decide

/-- Vector H21: the merged weight 2^64 is exact. -/
theorem test_hufBuild_exact_weights :
    seenTree (exec .hufBuild (withCounts [(0#8, -1#64), (1#8, -1#64), (2#8, 1#64)])) =
      some (0#8, [.leaf 0#8, .leaf 1#8, .leaf 2#8, .internal 2#9 0#9, .internal 1#9 3#9], 4#9, 1#8) := by decide

/-- Vector G3, the codes of H1. -/
theorem test_hufGen_abc :
    seenCodes [65#8, 66#8, 67#8, 0#8] (exec .hufGen abcTree) =
      some (0#8, 3#8, [[false], [true, true], [true, false], []]) := by decide

/-- Vector G1. -/
theorem test_hufGen_not_ready : seenCodes [0#8] (exec .hufGen State.reset) = some (7#8, 0#8, [[]]) := by decide

/-- Vector K2. -/
theorem test_bitPack :
    seen (exec .bitPack (abcWith [65#8, 66#8, 67#8, 65#8, 65#8, 66#8, 67#8, 65#8] 0#64)) =
      some (0#8, [0x71#8, 0xC0#8], 0#64, 8#64) := by decide

/-- Vector K10: a symbol has no code. -/
theorem test_bitPack_not_coded :
    seen (exec .bitPack (abcWith [65#8, 66#8, 68#8] 9#64)) = some (8#8, [65#8, 66#8, 68#8], 0#64, 9#64) := by decide

/-- Vector U15: non-zero padding is ignored. -/
theorem test_bitUnpack :
    seen (exec .bitUnpack (abcWith [0x07#8, 0xF5#8] 10#64)) =
      some (0#8, [65#8, 65#8, 65#8, 65#8, 65#8, 66#8, 66#8, 66#8, 67#8, 67#8], 0#64, 10#64) := by decide

/-- Vectors U3 and U7: the bits end at the root, and inside a code. -/
theorem test_bitUnpack_runs_out :
    seen (exec .bitUnpack (abcWith [0x07#8, 0xF4#8] 12#64)) = some (4#8, [0x07#8, 0xF4#8], 0#64, 12#64) ∧
    seen (exec .bitUnpack (abcWith [0x07#8] 7#64)) = some (5#8, [0x07#8], 0#64, 7#64) := by decide

/-- Vector Y1: SYS.RST after a run, and the codes and flags it leaves. -/
theorem test_sysRst :
    seen (exec .sysRst (abcWith [0xEC#8, 0x68#8] 6#64)) = some (0#8, [], 0#64, 0#64) ∧
    seenCodes [65#8, 66#8] (exec .sysRst abcState) = some (0#8, 0#8, [[], []]) := by decide

/-- Vector Y3: an illegal word. -/
theorem test_illegal_word :
    seen (step ((withW [1#8, 2#8, 3#8]).withFetchWord 8 0x0F)) = some (10#8, [1#8, 2#8, 3#8], 0#64, 0#64) := by decide

/-- Rule R92's layout on the records of vectors H1, H5 and H11. -/
theorem test_node_records :
    nodeRecord (some (.leaf 65#8)) = 0x40000041#32 ∧ nodeRecord (some (.internal 1#9 0#9)) = 0x80010000#32 ∧
    nodeRecord (some (.internal 12#9 13#9)) = 0x800C000D#32 ∧ nodeRecord none = 0#32 := by decide

/-- Rule R93's example: path `110` is `len = 3`, `value = 6`. -/
theorem test_code_entry : codeEntry [true, true, false] = (3#8, 6#255) := by decide

/-- Vector S8: `le64(258)`. -/
theorem test_le64 : le64 258#64 = [2#8, 1#8, 0#8, 0#8, 0#8, 0#8, 0#8, 0#8] := by decide

set_option maxRecDepth 20000 in
/-- Vector S9. -/
theorem test_analyze :
    analyze [97#8, 110#8, 0#8, 99#8, 2#8, 0#8] =
      .ok [(0#8, 2), (2#8, 1), (97#8, 1), (99#8, 1), (110#8, 1)] := by decide

/-- `issue` on an idle block takes two steps, and the response carries `STATUS` (rule R192). -/
theorem test_issue_two_steps :
    (match Sys2Proof.core.run 2 { withW [0#8] with pending := [.issue 0x20#8] } with
     | .next t => some (t.w, t.busy, t.pending, t.replies)
     | .fault _ => none
     | .refused _ => none) = some ([0#8], false, [], [.completed 0#8]) := by decide

/-! ## A case that meets the hypotheses of each statement

One theorem for each statement that has hypotheses, `witness_<statement>`, with a case for each clause at the edge of its range. -/

/-- An ABC block whose capacities are exactly what the case needs. -/
def tight (w : List Byte) (wcap : Long) (acap : NodeIx) : State := { abcState with w := w, cfgWcap := wcap, cfgAcap := acap }

theorem abcState_code : codeTable abcArena 4#9 = some abcState.code := rfl

theorem abc_tree_over : TreeOver 3 abcArena 4#9 := by decide

theorem abc_inv (w : List Byte) (dlen wcap : Long) (hw : w.length ≤ wcap.toNat) (hp : 1 ≤ wcap.toNat) :
    Inv { abcState with w := w, dlen := dlen, cfgWcap := wcap } where
  wcapPos := hp
  acapRange := (by decide : 1 ≤ (511#9 : NodeIx).toNat ∧ (511#9 : NodeIx).toNat ≤ 511)
  wFits := hw
  arenaFits := (by decide : abcArena.length ≤ (511#9 : NodeIx).toNat)
  statusLegal := (by decide : (0#8 : Byte).toNat ≤ 10)
  treePresent := fun _ => ⟨3, abc_tree_over⟩
  treeAbsent := fun h => nomatch h
  codePresent := fun _ => abcState_code
  codeAbsent := fun h => nomatch h

theorem abcTree_inv : Inv abcTree where
  wcapPos := by decide
  acapRange := by decide
  wFits := by decide
  arenaFits := by decide
  statusLegal := by decide
  treePresent := fun _ => ⟨3, by decide⟩
  treeAbsent := fun h => nomatch h
  codePresent := fun h => nomatch h
  codeAbsent := fun _ => rfl

/-- The codes of the ABC tree, as turns. -/
def abcTurns (b : Byte) : Bits :=
  if b = 65#8 then [false] else if b = 66#8 then [true, true] else [true, false]

theorem abc_leads (b : Byte) (h : b ∈ [65#8, 66#8, 67#8]) : LeadsToLeaf abcArena 4#9 (abcTurns b) b := by
  fin_cases h
  · exact ⟨0#9, by decide, by decide⟩
  · exact ⟨1#9, by decide, by decide⟩
  · exact ⟨2#9, by decide, by decide⟩

theorem no_reset_nil {s : State} (h : s.pending = []) : NoReset s := by
  intro rest e
  simp [h] at e

theorem witness_HardwareResetAbandonsCommand :
    ({ abcState with cmd := some 0x40#8, pending := [.hardwareReset, .getW] } : State).pending =
      .hardwareReset :: [.getW] := rfl

theorem witness_ResetMeetsInvariant :
    1 ≤ (1#64 : Long).toNat ∧ 1 ≤ (1#9 : NodeIx).toNat ∧ 1 ≤ (-1#64 : Long).toNat ∧ 1 ≤ (511#9 : NodeIx).toNat := by
  decide

theorem witness_StepKeepsInvariant :
    Inv abcTree ∧ ∃ t, step (abcTree.withFetchWord 8 0x31) = .next t := by
  refine ⟨abcTree_inv, ?_⟩
  rw [step_withFetchWord]
  exact ⟨_, rfl⟩

theorem witness_StepAlwaysGoesOn : Inv abcTree := abcTree_inv

theorem witness_StepRunsDecodedCommand :
    ({ abcState with cmd := some 0x41#8 } : State).cmd = some 0x41#8 ∧
    NoReset { abcState with cmd := some 0x41#8 } ∧ decode [0x41#8] = .ok (.bitUnpack, []) :=
  ⟨rfl, no_reset_nil rfl, by decide⟩

theorem witness_IllegalWordSetsStatusTen :
    ({ abcState with cmd := some 0x01#8 } : State).cmd = some 0x01#8 ∧
    NoReset { abcState with cmd := some 0x01#8 } ∧
    0x01#8 ∉ [0x00#8, 0x10#8, 0x11#8, 0x20#8, 0x21#8, 0x30#8, 0x31#8, 0x40#8, 0x41#8] ∧
    0x42#8 ∉ [0x00#8, 0x10#8, 0x11#8, 0x20#8, 0x21#8, 0x30#8, 0x31#8, 0x40#8, 0x41#8] ∧
    0xFF#8 ∉ [0x00#8, 0x10#8, 0x11#8, 0x20#8, 0x21#8, 0x30#8, 0x31#8, 0x40#8, 0x41#8] :=
  ⟨rfl, no_reset_nil rfl, by decide, by decide, by decide⟩

theorem witness_ActionsAreHeldWhileBusy :
    ({ abcState with cmd := some 0x20#8, pending := [.getW] } : State).busy = true ∧
    NoReset { abcState with cmd := some 0x20#8, pending := [.getW] } ∧
    ∃ t, step { abcState with cmd := some 0x20#8, pending := [.getW] } = .next t :=
  ⟨rfl, fun _ e => by simp at e, _, rfl⟩

theorem witness_IdleBlockAcceptsIssue :
    ({ abcState with pending := [.issue 0xFF#8, .getW] } : State).cmd = none ∧
    ({ abcState with pending := [.issue 0xFF#8, .getW] } : State).pending = .issue 0xFF#8 :: [.getW] := ⟨rfl, rfl⟩

/-- A list of exactly `WCAP` bytes, and one of one byte more. -/
theorem witness_PutWFitsOrIsRefused :
    (tight [] 2#64 511#9).cmd = none ∧ [1#8, 2#8].length = (tight [] 2#64 511#9).cfgWcap.toNat ∧
    [1#8, 2#8, 3#8].length = (tight [] 2#64 511#9).cfgWcap.toNat + 1 ∧
    ({ tight [] 2#64 511#9 with pending := [.putW [1#8, 2#8]] } : State).pending = .putW [1#8, 2#8] :: [] := by
  decide

/-- The least count out of range, and the greatest in range. -/
theorem witness_PutsWriteTheirRegister :
    State.reset.cmd = none ∧ (0#8 : Byte) ≠ 255#8 ∧ 2 ^ 64 ≤ 18446744073709551616 ∧
    (-1#64 : Long).toNat = 18446744073709551615 := by decide

/-- The last byte of a buffer, the index beyond it, and a block without a code table. -/
theorem witness_GetsChangeNothing :
    (withW banana).cmd = none ∧ (withW banana).w[5]? = some 97#8 ∧ (withW banana).w.length ≤ 6 ∧
    abcTree.cmd = none ∧ Inv abcTree ∧ abcTree.codeValid = false ∧ isGet (.getNode 511) = true :=
  ⟨rfl, by decide, by decide, rfl, abcTree_inv, rfl, rfl⟩

/-- The first slot, the last of the tree, the first empty one, the last of the arena, and one beyond. -/
theorem witness_GetNodeReadsSlotOrIsRefused :
    abcState.cmd = none ∧ ¬ abcState.cfgAcap.toNat ≤ 4 ∧ ¬ abcState.arena.length ≤ 4 ∧ abcState.arena.length ≤ 5 ∧
    ¬ abcState.cfgAcap.toNat ≤ 510 ∧ abcState.cfgAcap.toNat ≤ 511 := by decide

theorem witness_CodeEntryLayout :
    ([] : Bits).length ≤ 255 ∧ (List.replicate 255 true).length ≤ 255 ∧ 254 < (List.replicate 255 true).length := by
  rw [List.length_replicate, List.length_nil]
  omega

theorem witness_EveryCommandCompletes : Inv abcTree ∧ Inv (State.resetOf 1#64 1#9) := by
  refine ⟨abcTree_inv, ?_⟩
  exact
    { wcapPos := by decide
      acapRange := by decide
      wFits := by decide
      arenaFits := by decide
      statusLegal := by decide
      treePresent := fun h => nomatch h
      treeAbsent := fun _ => ⟨rfl, rfl, rfl⟩
      codePresent := fun h => nomatch h
      codeAbsent := fun _ => rfl }

theorem witness_FailedCommandChangesStatusOnly :
    exec .bwtFwd State.reset = .next (State.reset.finish 1#8) ∧ (State.reset.finish 1#8).status ≠ 0#8 :=
  ⟨rfl, by decide⟩

theorem witness_CommandsWriteOnlyWhatTheirRulesList : ∃ t, exec .hufGen abcTree = .next t := ⟨_, rfl⟩

theorem witness_TransformsKeepLength :
    Instr.bwtFwd ∈ [Instr.bwtFwd, .bwtInv, .mtfEnc, .mtfDec] ∧ ∃ t, exec .bwtFwd (withW banana) = .next t :=
  ⟨by decide, _, rfl⟩

theorem witness_TreeValidClearedOnlyByReset :
    ∃ t, step { abcState with cmd := some 0x00#8 } = .next t ∧ abcState.treeValid = true ∧ t.treeValid = false :=
  ⟨_, rfl, rfl, rfl⟩

theorem witness_BwtFwdPermutesBySuffixOrder :
    (withW banana).w ≠ [] ∧ (withW banana).w.length ≤ (withW banana).cfgWcap.toNat ∧
    (tight [0#8] 1#64 511#9).w ≠ [] ∧ (tight [0#8] 1#64 511#9).w.length ≤ (tight [0#8] 1#64 511#9).cfgWcap.toNat := by
  decide

theorem witness_BwtFwdStartInRangeAndRearranges :
    (withW [65#8, 65#8]).w ≠ [] ∧ (withW [65#8, 65#8]).w.length ≤ (withW [65#8, 65#8]).cfgWcap.toNat := by decide

theorem witness_BwtEmptyBufferRaisesEmptyInput : State.reset.w = [] := rfl

theorem witness_InverseWalkReachesRowZeroOnce :
    1 ≤ 1 ∧ 1 ≤ annbaa.length ∧ 1 ≤ annbaa.length ∧ annbaa.length ≤ annbaa.length := by decide

theorem witness_BwtInvReplacesWByTheWalk :
    annbaa ≠ [] ∧ 1 ≤ (4#64 : Long).toNat ∧ (4#64 : Long).toNat ≤ annbaa.length ∧
    inverseBwt (4#64 : Long).toNat annbaa = some banana ∧ (6#64 : Long).toNat = annbaa.length ∧
    (inverseBwt (6#64 : Long).toNat annbaa).isSome = true := by decide

/-- `START` 0, `START` one beyond the buffer, and a walk that ends early. -/
theorem witness_BwtInvRejectsInvalidInput :
    annbaa ≠ [] ∧ (0#64 : Long).toNat < 1 ∧ annbaa.length < (7#64 : Long).toNat ∧
    inverseBwt (1#64 : Long).toNat annbaa = none := by decide

theorem witness_BwtRoundTrip :
    (withW banana).w ≠ [] ∧ (withW banana).w.length ≤ (withW banana).cfgWcap.toNat := by decide

/-- The first byte of a sequence, a later first occurrence, and a byte that follows itself. -/
theorem witness_MtfEncEmitsRecency :
    annbaa = [] ++ 97#8 :: [110#8, 110#8, 98#8, 97#8, 97#8] ∧ 97#8 ∉ ([] : List Byte) ∧
    annbaa = [97#8, 110#8, 110#8] ++ 98#8 :: [97#8, 97#8] ∧ 98#8 ∉ [97#8, 110#8, 110#8] ∧
    annbaa = [97#8] ++ 110#8 :: ([] ++ 110#8 :: [98#8, 97#8, 97#8]) ∧
    annbaa = [] ++ 97#8 :: ([110#8, 110#8, 98#8] ++ 97#8 :: [97#8]) ∧ 97#8 ∉ [110#8, 110#8, 98#8] := by decide

theorem witness_MtfEmptyBufferSucceeds : State.reset.w = [] := rfl

/-- No symbol, one symbol, and three symbols with one slot too few. -/
theorem witness_HufBuildChecks :
    (countedSymbols State.reset).length = 0 ∧ (countedSymbols (withCounts [(65#8, 4#64)])).length = 1 ∧
    2 ≤ (countedSymbols { withCounts abcCounts with cfgAcap := 4#9 }).length ∧
    ({ withCounts abcCounts with cfgAcap := 4#9 } : State).cfgAcap.toNat <
      2 * (countedSymbols { withCounts abcCounts with cfgAcap := 4#9 }).length - 1 := by
  simp only [countedSymbols_eq]
  decide

theorem witness_HufBuildBuildsTree :
    2 ≤ (countedSymbols { withCounts abcCounts with cfgAcap := 5#9 }).length ∧
    2 * (countedSymbols { withCounts abcCounts with cfgAcap := 5#9 }).length - 1 ≤
      ({ withCounts abcCounts with cfgAcap := 5#9 } : State).cfgAcap.toNat := by
  simp only [countedSymbols_eq]
  decide

/-- The smaller symbol with the larger count (vector H5), and two equal counts in an arena that they fill. -/
theorem witness_HufBuildTwoSymbols :
    countedSymbols (withCounts [(97#8, 2#64), (98#8, 1#64)]) = [97#8, 98#8] ∧
    3 ≤ (withCounts [(97#8, 2#64), (98#8, 1#64)]).cfgAcap.toNat ∧
    countedSymbols { withCounts [(97#8, 1#64), (98#8, 1#64)] with cfgAcap := 3#9 } = [97#8, 98#8] ∧
    3 ≤ ({ withCounts [(97#8, 1#64), (98#8, 1#64)] with cfgAcap := 3#9 } : State).cfgAcap.toNat := by
  simp only [countedSymbols_eq]
  decide

theorem witness_QueueStartsSortedByCount : ([] : List (Byte × Long)).length ≤ 256 ∧ abcCounts.length ≤ 256 := by decide

theorem witness_MergedEntryGoesAfterEquals :
    ([] : List QueueEntry).Pairwise (fun x y => x.weight ≤ y.weight) ∧
    [(⟨5, 0#9⟩ : QueueEntry), ⟨5, 3#9⟩].Pairwise (fun x y => x.weight ≤ y.weight) := by decide

theorem witness_TreeIsDeterminedByCounts :
    (withCounts abcCounts).count = ({ withCounts abcCounts with w := banana } : State).count ∧
    (∃ t, exec .hufBuild (withCounts abcCounts) = .next t ∧ t.status = 0#8) ∧
    ∃ t, exec .hufBuild { withCounts abcCounts with w := banana } = .next t ∧ t.status = 0#8 :=
  ⟨rfl, ⟨_, rfl, rfl⟩, _, rfl, rfl⟩

theorem witness_HufGenWritesPathsToLeaves :
    Inv abcTree ∧ abcTree.treeValid = true ∧ LeadsToLeaf abcTree.arena abcTree.root [true, false] 67#8 ∧
    65#8 ∈ leafSymbols abcTree.arena ∧ 0#8 ∉ leafSymbols abcTree.arena :=
  ⟨abcTree_inv, rfl, abc_leads 67#8 (by decide), by decide, by decide⟩

theorem witness_HufGenNeedsTree : State.reset.treeValid = false := rfl

theorem witness_CodeIsPrefixFreeAndComplete :
    Inv { abcState with w := [], dlen := 0#64, cfgWcap := 4#64 } ∧ abcState.codeValid = true ∧
    abcState.readCode 65#8 ≠ [] :=
  ⟨abc_inv [] 0#64 4#64 (by decide) (by decide), rfl, by decide⟩

/-- A payload that fills the buffer exactly (vector K13 in small: nine bits in two bytes). -/
theorem witness_BitPackPacksCodes :
    (tight [65#8, 66#8, 66#8, 66#8, 66#8] 2#64 511#9).codeValid = true ∧
    (∀ b ∈ [65#8, 66#8, 66#8, 66#8, 66#8], abcState.readCode b ≠ []) ∧
    (([65#8, 66#8, 66#8, 66#8, 66#8].flatMap abcState.readCode).length + 7) / 8 = 2 := by decide

/-- Nothing installed; a symbol without a code; a payload one byte too long. -/
theorem witness_BitPackErrorsInOrder :
    State.reset.codeValid = false ∧ abcState.codeValid = true ∧ (∃ b ∈ [65#8, 68#8], abcState.readCode b = []) ∧
    (∀ b ∈ [65#8, 66#8, 66#8, 66#8, 66#8], abcState.readCode b ≠ []) ∧
    (1#64 : Long).toNat < (([65#8, 66#8, 66#8, 66#8, 66#8].flatMap abcState.readCode).length + 7) / 8 := by decide

theorem witness_PackedSizeIsBounded :
    Inv { abcState with w := [67#8], dlen := 0#64, cfgWcap := 1#64 } ∧ abcState.codeValid = true ∧
    (∀ b ∈ [67#8], abcState.readCode b ≠ []) ∧
    (([67#8].flatMap abcState.readCode).length + 7) / 8 ≤ (1#64 : Long).toNat :=
  ⟨abc_inv _ _ _ (by decide) (by decide), rfl, by decide, by decide⟩

theorem witness_UnpackedBitsAreMsbFirst : 0 < [0x07#8].length ∧ 0 < 8 ∧ 7 < 8 := by decide

/-- No tree; and a `DLEN` one above the capacity. -/
theorem witness_BitUnpackPreconditions :
    State.reset.treeValid = false ∧ abcState.treeValid = true ∧ (4#64 : Long).toNat < (5#64 : Long).toNat := by decide

/-- Vector U6 at the exact capacity: six symbols, and one bit that is not read. -/
theorem witness_BitUnpackDecodesLeadingCodes :
    Inv { abcState with w := [0x07#8], dlen := 6#64, cfgWcap := 6#64 } ∧ abcState.treeValid = true ∧
    (6#64 : Long).toNat ≤ (6#64 : Long).toNat ∧ [65#8, 65#8, 65#8, 65#8, 65#8, 66#8].length = (6#64 : Long).toNat ∧
    (∀ b ∈ [65#8, 65#8, 65#8, 65#8, 65#8, 66#8], LeadsToLeaf abcState.arena abcState.root (abcTurns b) b) ∧
    unpackBits [0x07#8] = [65#8, 65#8, 65#8, 65#8, 65#8, 66#8].flatMap abcTurns ++ [true] :=
  ⟨abc_inv _ _ _ (by decide) (by decide), rfl, by decide, by decide,
    fun b hb => abc_leads b (by fin_cases hb <;> decide), by decide⟩

/-- Vector U8, the bits end between two codes; and vector U7, they end inside one. -/
theorem witness_BitUnpackRunsOutOfBits :
    Inv { abcState with w := [0x00#8], dlen := 9#64, cfgWcap := 9#64 } ∧
    (List.replicate 8 65#8).length < (9#64 : Long).toNat ∧
    (∀ b ∈ List.replicate 8 65#8, LeadsToLeaf abcState.arena abcState.root (abcTurns b) b) ∧
    LeadsToInternal abcState.arena abcState.root [] ∧
    unpackBits [0x00#8] = (List.replicate 8 65#8).flatMap abcTurns ++ [] ∧
    Inv { abcState with w := [0x07#8], dlen := 7#64, cfgWcap := 9#64 } ∧
    LeadsToInternal abcState.arena abcState.root [true] ∧
    unpackBits [0x07#8] = [65#8, 65#8, 65#8, 65#8, 65#8, 66#8].flatMap abcTurns ++ [true] :=
  ⟨abc_inv _ _ _ (by decide) (by decide), by decide,
    fun b hb => abc_leads b (by simp [List.eq_of_mem_replicate hb]),
    ⟨4#9, 0#9, 3#9, by decide, by decide⟩, by decide, abc_inv _ _ _ (by decide) (by decide),
    ⟨3#9, 2#9, 1#9, by decide, by decide⟩, by decide⟩

theorem witness_TrailingPayloadIsIgnored :
    ∃ t, exec .bitUnpack (abcWith [0x07#8, 0xF4#8] 10#64) = .next t ∧ t.status = 0#8 := ⟨_, rfl, rfl⟩

theorem witness_PackUnpackRoundTrip :
    Inv { abcState with w := [65#8, 66#8], dlen := 0#64, cfgWcap := 2#64 } ∧ abcState.codeValid = true ∧
    (∀ b ∈ [65#8, 66#8], abcState.readCode b ≠ []) ∧
    (([65#8, 66#8].flatMap abcState.readCode).length + 7) / 8 ≤ (2#64 : Long).toNat :=
  ⟨abc_inv _ _ _ (by decide) (by decide), rfl, by decide, by decide⟩

theorem witness_ContainerRoundTrip : 0 < 8 ∧ 7 < 8 ∧ (List.replicate 15 0#8).length < 16 := by decide

theorem witness_AnalyzerCountsOccurrences : [0#8, 0#8] ≠ [] := by decide

/-- Two symbols of the extreme counts, in an arena that they fill; and a table with the least count out of range. -/
theorem witness_InstallMakesReady :
    [((0#8 : Byte), 1), (255#8, 2 ^ 64 - 1)].Pairwise (fun a b => a.1.toNat < b.1.toNat) ∧
    (∀ e ∈ [((0#8 : Byte), 1), (255#8, 2 ^ 64 - 1)], 1 ≤ e.2 ∧ e.2 < 2 ^ 64) ∧
    2 ≤ [((0#8 : Byte), 1), (255#8, 2 ^ 64 - 1)].length ∧
    2 * [((0#8 : Byte), 1), (255#8, 2 ^ 64 - 1)].length - 1 ≤ ({ State.reset with cfgAcap := 3#9 } : State).cfgAcap.toNat ∧
    [((0#8 : Byte), 2 ^ 64)].Pairwise (fun a b => a.1.toNat < b.1.toNat) ∧
    ∃ e ∈ [((0#8 : Byte), 2 ^ 64)], 2 ^ 64 ≤ e.2 := by
  decide

/-- The block compresses the one byte `A`, whose recoded form is `A`, and decompresses it again. -/
theorem witness_PipelineRoundTrip :
    Inv { abcState with w := [], dlen := 0#64, cfgWcap := 1#64 } ∧ abcState.codeValid = true ∧ [65#8] ≠ [] ∧
    [65#8].length ≤ (1#64 : Long).toNat ∧ (∀ b ∈ recoded [65#8], abcState.readCode b ≠ []) ∧
    (((recoded [65#8]).flatMap abcState.readCode).length + 7) / 8 ≤ (1#64 : Long).toNat ∧
    compress [65#8] { abcState with w := [], dlen := 0#64, cfgWcap := 1#64 } =
      .done { abcState with w := [0#8], dlen := 1#64, start := 1#64, cfgWcap := 1#64 }
        (le64 1#64 ++ le64 1#64 ++ [0#8]) ∧
    abcState.treeValid = true ∧ (le64 1#64 ++ le64 1#64 ++ [0#8]).length - 16 ≤ (1#64 : Long).toNat :=
  ⟨abc_inv _ _ _ (by decide) (by decide), rfl, by decide, by decide, by decide, by decide, rfl, rfl, by decide⟩

end Sys2Proof.Tests
end

-- The state and its invariant: O1, O3, O4, O21, O22 and O23.

section
/-! PROOF. Reset: the values it leaves, and that they meet the invariant. -/

namespace Sys2Proof

open Sys2Proof.Machine

theorem hasResetValues_resetBlock (s : State) : HasResetValues s.cfgWcap s.cfgAcap s.resetBlock where
  wEmpty := rfl
  wlenZero := rfl
  startZero := rfl
  dlenZero := rfl
  atopZero := rfl
  rootZero := rfl
  notBusy := rfl
  noTree := rfl
  noCode := rfl
  statusZero := rfl
  wcapKept := rfl
  acapKept := rfl
  countsZero sym := by simp [State.readCount]
  slotsEmpty i := by simp [readSlot]
  codesEmpty sym := by simp [State.readCode]

/-- Reset makes the invariant hold on any block with capacities of rules R7 and R8; that `ACAP` is at most 511 is its width. -/
theorem inv_resetBlock {s : State} (hw : 1 ≤ s.cfgWcap.toNat) (ha : 1 ≤ s.cfgAcap.toNat) : Inv s.resetBlock where
  wcapPos := hw
  acapRange := ⟨ha, Nat.le_of_lt_succ s.cfgAcap.isLt⟩
  wFits := Nat.zero_le _
  arenaFits := Nat.zero_le _
  statusLegal := Nat.zero_le _
  treePresent := nofun
  treeAbsent _ := ⟨rfl, rfl, rfl⟩
  codePresent := nofun
  codeAbsent _ := rfl

/-- Settles O1: the state after power-on reset is a fixed point of `resetBlock`, and SYS.RST leaves `resetBlock`. -/
theorem resetGivesTableOfResetValues : Obligations.ResetGivesTableOfResetValues :=
  ⟨fun wcap acap => hasResetValues_resetBlock (State.resetOf wcap acap),
    fun s => ⟨s.resetBlock, execSysRst_eq s, hasResetValues_resetBlock s⟩⟩

/-- Settles O3: the state after power-on reset is a fixed point of `resetBlock`. -/
theorem resetMeetsInvariant : Obligations.ResetMeetsInvariant :=
  fun wcap acap hw ha => inv_resetBlock (s := State.resetOf wcap acap) hw ha

end Sys2Proof
end

section
/-! PROOF. What a command word, a command and a host action write. -/

namespace Sys2Proof

open Sys2Proof.Machine

/-- A row that a word selects is a row of the table, and it matches the word. -/
theorem selectRow_some {w : Byte} {rows : List OpRow} {r : OpRow} (h : selectRow w rows = some r) :
    r ∈ rows ∧ w &&& r.mask = r.pattern := by
  induction rows with
  | nil => cases h
  | cons x xs ih =>
    simp only [selectRow] at h
    split at h
    · obtain rfl := Option.some.inj h
      exact ⟨by simp, ‹_›⟩
    · obtain ⟨hr, hm⟩ := ih h
      exact ⟨by simp [hr], hm⟩

/-- Every row compares the whole word with the word of its command (rules R83, R85). -/
theorem opTable_rows : ∀ r ∈ opTable, r.mask = BitVec.allOnes 8 ∧ r.pattern = encodeWord r.instr := by decide

theorem encodeWord_of_decodeWord {w : Byte} {i : Instr} (h : decodeWord w = .ok i) : encodeWord i = w := by
  simp only [decodeWord] at h
  split at h
  · rename_i r hr
    obtain rfl := Except.ok.inj h
    obtain ⟨hmem, hmatch⟩ := selectRow_some hr
    obtain ⟨hmask, hpat⟩ := opTable_rows r hmem
    rw [← hpat, ← hmatch, hmask, BitVec.and_allOnes]
  · cases h

/-- A command word that is accepted runs as a command or ends with IllegalCommand. -/
theorem runWord_cases {w : Byte} {s t : State} (h : runWord w s = .next t) :
    (∃ i, encodeWord i = w ∧ exec i s = .next t) ∨ t = s.finish (errorCode .illegalCommand) := by
  cases hd : decodeWord w with
  | ok i => exact .inl ⟨i, encodeWord_of_decodeWord hd, runWord_command s hd ▸ h⟩
  | error e => exact .inr (raise_next.mp (runWord_illegal s hd ▸ h))

/-- A host action other than a reset writes `W`, `START`, `DLEN`, `COUNT` and `CMD` at most, and it may be answered. -/
theorem performAction_writes {a : HostAction} (s : State) (ha : a ≠ .hardwareReset) :
    ∃ w start dlen count cmd replies, performAction a s =
      { s with w := w, start := start, dlen := dlen, count := count, cmd := cmd, replies := replies } := by
  cases h : inRange a s with
  | false => exact ⟨_, _, _, _, _, _, performAction_outOfRange h⟩
  | true =>
    rw [performAction_inRange h]
    cases a with
    | hardwareReset => exact absurd rfl ha
    | _ => exact ⟨_, _, _, _, _, _, rfl⟩

/-- Settles O21: each command ends with an error, which leaves everything but `STATUS` and `CMD`, or in the state that its rule
names. -/
theorem commandsWriteOnlyWhatTheirRulesList : Obligations.CommandsWriteOnlyWhatTheirRulesList := by
  intro i s t h
  cases i with
  | sysRst =>
    obtain rfl := Host.Outcome.next.inj h
    simp
  | bwtFwd => rcases execBwtFwd_cases h with ⟨k, rfl⟩ | ⟨-, rfl⟩ <;> simp
  | bwtInv => rcases execBwtInv_cases h with ⟨k, rfl⟩ | ⟨out, -, -, -, -, rfl⟩ <;> simp
  | mtfEnc =>
    obtain rfl := Host.Outcome.next.inj h
    simp
  | mtfDec =>
    obtain rfl := Host.Outcome.next.inj h
    simp
  | hufBuild => rcases execHufBuild_cases h with ⟨k, rfl⟩ | ⟨-, -, rfl⟩ <;> simp
  | hufGen => rcases execHufGen_cases h with ⟨k, rfl⟩ | ⟨code, -, -, rfl⟩ <;> simp
  | bitPack => rcases execBitPack_cases h with ⟨k, rfl⟩ | ⟨-, -, rfl⟩ <;> simp
  | bitUnpack => rcases execBitUnpack_cases h with ⟨k, rfl⟩ | ⟨out, -, -, -, rfl⟩ <;> simp

/-- Settles O22: an error leaves `W`, and what a transform that succeeds writes is as long as its input. -/
theorem transformsKeepLength : Obligations.TransformsKeepLength := by
  intro i s t hi h
  simp only [List.mem_cons, List.not_mem_nil, or_false] at hi
  rcases hi with rfl | rfl | rfl | rfl
  · rcases execBwtFwd_cases h with ⟨k, rfl⟩ | ⟨-, rfl⟩
    · rfl
    · exact permutedBytes_length s.w
  · rcases execBwtInv_cases h with ⟨k, rfl⟩ | ⟨out, -, -, -, ho, rfl⟩
    · rfl
    · exact inverseBwt_length ho
  · obtain rfl := Host.Outcome.next.inj h
    exact mtfEncode_length s.w
  · obtain rfl := Host.Outcome.next.inj h
    exact mtfDecode_length s.w

/-- HUF.BUILD sets `TREE_VALID` or leaves it, and no other command but SYS.RST writes it. -/
theorem exec_keeps_treeValid {i : Instr} {s t : State} (hi : i ≠ .sysRst) (h : exec i s = .next t)
    (hs : s.treeValid = true) : t.treeValid = true := by
  by_cases hb : i = .hufBuild
  · subst hb
    rcases execHufBuild_cases h with ⟨k, rfl⟩ | ⟨-, -, rfl⟩
    · exact hs
    · rfl
  · obtain ⟨-, -, -, htree, -⟩ := commandsWriteOnlyWhatTheirRulesList i s t h
    obtain ⟨-, -, hv⟩ := htree (by simp [hi, hb])
    exact hv.trans hs

/-- Settles O23: of what a step can do, only a hardware reset and the command SYS.RST do not keep `TREE_VALID`. -/
theorem treeValidClearedOnlyByReset : Obligations.TreeValidClearedOnlyByReset := by
  intro s t h hs ht
  rcases step_cases h with ⟨rest, hp, -⟩ | ⟨word, u, -, hc, hu, rfl⟩ | ⟨-, -, rfl⟩ | ⟨a, rest, -, ha, -, rfl⟩
  · exact .inl ⟨rest, hp⟩
  · right
    rcases runWord_cases hu with ⟨i, rfl, he⟩ | rfl
    · by_cases hi : i = .sysRst
      · rw [hc, hi]
        rfl
      · exact absurd (exec_keeps_treeValid hi he hs) (by simpa using ht)
    · exact absurd hs (by simpa using ht)
  · exact absurd hs (by simp [ht])
  · obtain ⟨w, start, dlen, count, cmd, replies, heq⟩ := performAction_writes { s with pending := rest } ha
    rw [heq] at ht
    exact absurd hs (by simpa using ht)

end Sys2Proof
end

section
/-! PROOF. The merge loop builds the tree of rule R40. The invariant of the loop is `Forest`: every slot is named exactly once,
as a child or in the queue. -/

namespace Sys2Proof

open Sys2Proof.Machine

theorem internalBelow_append {arena : List Node} {i : Nat} (more : List Node) (hi : i < arena.length) :
    internalBelow (arena ++ more) i = internalBelow arena i := by
  simp [internalBelow, List.getElem?_append_left hi]

theorem childRefs_append_internal (arena : List Node) (l r : NodeIx) :
    childRefs (arena ++ [.internal l r]) = childRefs arena ++ [l, r] := by
  simp [childRefs]

theorem childRefs_leavesOf (table : List (Byte × Long)) : childRefs (leavesOf table) = [] := by
  simp [childRefs, leavesOf, List.flatMap_map]

theorem leafSymbols_leavesOf (table : List (Byte × Long)) :
    leafSymbols (leavesOf table) = table.map (fun e => e.1) := by
  rw [leafSymbols, leavesOf, List.filterMap_map]
  exact congrFun (List.filterMap_eq_map (f := fun e : Byte × Long => e.1)) table

/-- The indices of the first `n` slots. -/
def slotIndices (n : Nat) : List NodeIx := (List.range n).map (BitVec.ofNat 9)

theorem slotIndices_succ (n : Nat) : slotIndices (n + 1) = slotIndices n ++ [BitVec.ofNat 9 n] := by
  simp [slotIndices, List.range_succ]

theorem mem_slotIndices {n i : Nat} (h : i < n) : BitVec.ofNat 9 i ∈ slotIndices n :=
  List.mem_map_of_mem (List.mem_range.mpr h)

theorem toNat_lt_of_mem_slotIndices {n : Nat} {i : NodeIx} (h : i ∈ slotIndices n) : i.toNat < n := by
  obtain ⟨k, hk, rfl⟩ := List.mem_map.mp h
  exact Nat.lt_of_le_of_lt (Nat.mod_le _ _) (List.mem_range.mp hk)

/-- As long as 9 bits can number them, different slots have different indices. -/
theorem slotIndices_nodup {n : Nat} (h : n ≤ 512) : (slotIndices n).Nodup := by
  refine List.Nodup.map_on (fun a ha b hb hab => ?_) List.nodup_range
  have ha := List.mem_range.mp ha
  have hb := List.mem_range.mp hb
  have hab := congrArg BitVec.toNat hab
  simp only [BitVec.toNat_ofNat] at hab
  omega

/-- What holds in the merge loop (rule R139): the leaves come first, every node after them is an internal node with children below
it, the slots are those that are a child or stand in the queue, each once, and the newest node stands in the queue. -/
structure Forest (leaves : List Node) (queue : List QueueEntry) (arena : List Node) : Prop where
  leavesFirst : leaves <+: arena
  internals : ∀ i, leaves.length ≤ i → i < arena.length → internalBelow arena i = true
  slots : (childRefs arena ++ queue.map QueueEntry.node).Perm (slotIndices arena.length)
  newest : BitVec.ofNat 9 (arena.length - 1) ∈ queue.map QueueEntry.node

theorem Forest.queued_lt {leaves arena : List Node} {queue : List QueueEntry} (h : Forest leaves queue arena)
    {e : QueueEntry} (he : e ∈ queue) : e.node.toNat < arena.length :=
  toNat_lt_of_mem_slotIndices (h.slots.mem_iff.mp (by simp [List.mem_map_of_mem he]))

theorem initialQueue_nodes (table : List (Byte × Long)) :
    ((initialQueue table).map QueueEntry.node).Perm (slotIndices table.length) := by
  refine ((stableSort_perm _).map _).trans (.of_eq ?_)
  rw [List.map_map, slotIndices, List.range_eq_range', ← List.zipIdx_map_snd 0 table, List.map_map]
  rfl

theorem forest_initial {table : List (Byte × Long)} (h : table ≠ []) :
    Forest (leavesOf table) (initialQueue table) (leavesOf table) where
  leavesFirst := List.prefix_rfl
  internals i h1 h2 := absurd h2 (Nat.not_lt.mpr h1)
  slots := by
    rw [childRefs_leavesOf, List.nil_append, leavesOf, List.length_map]
    exact initialQueue_nodes table
  newest := by
    have hlt : table.length - 1 < table.length := Nat.sub_one_lt (mt List.length_eq_zero_iff.mp h)
    simpa only [leavesOf, List.length_map] using (initialQueue_nodes table).mem_iff.mpr (mem_slotIndices hlt)

/-- Queueing an entry after some others and queueing it before them name the same slots. -/
theorem insertAfter_nodes (e : QueueEntry) (queue : List QueueEntry) :
    ((insertAfter weightLe e queue).map QueueEntry.node).Perm (e.node :: queue.map QueueEntry.node) :=
  (insertAfter_perm e queue).map _

/-- A merge step (rule R139) makes the first two entries of the queue the children of the slot that it queues. -/
theorem Forest.merge {leaves arena : List Node} {a b : QueueEntry} {rest : List QueueEntry}
    (h : Forest leaves (a :: b :: rest) arena) (weight : Nat) :
    Forest leaves (insertAfter weightLe ⟨weight, BitVec.ofNat 9 arena.length⟩ rest)
      (arena ++ [.internal a.node b.node]) where
  leavesFirst := h.leavesFirst.trans (List.prefix_append _ _)
  internals i h1 h2 := by
    rcases Nat.lt_or_ge i arena.length with hi | hi
    · rw [internalBelow_append _ hi]
      exact h.internals i h1 hi
    · obtain rfl : i = arena.length := by
        rw [List.length_append, List.length_singleton] at h2
        omega
      simp [internalBelow, h.queued_lt (e := a), h.queued_lt (e := b)]
  slots := by
    have hchildren :
        (childRefs arena ++ [a.node, b.node] ++ rest.map QueueEntry.node).Perm (slotIndices arena.length) := by
      simpa using h.slots
    have hqueued := (insertAfter_nodes ⟨weight, BitVec.ofNat 9 arena.length⟩ rest).append_left
      (childRefs arena ++ [a.node, b.node])
    rw [childRefs_append_internal, List.length_append, List.length_singleton, slotIndices_succ]
    exact hqueued.trans <| List.perm_middle.trans <| (hchildren.cons _).trans (List.perm_append_singleton _ _).symm
  newest := by
    rw [(insertAfter_nodes _ rest).mem_iff, List.length_append, List.length_singleton, Nat.add_sub_cancel]
    exact List.mem_cons_self

theorem Forest.mergeLoop {leaves arena : List Node} {queue : List QueueEntry} (h : Forest leaves queue arena) (k : Nat) :
    Forest leaves (mergeLoop k queue arena).1 (mergeLoop k queue arena).2 := by
  induction k generalizing queue arena with
  | zero => exact h
  | succ n ih =>
    match queue with
    | [] => exact h
    | [_] => exact h
    | a :: b :: rest => exact ih (h.merge _)

theorem mergeLoop_queue_length (k : Nat) (queue : List QueueEntry) (arena : List Node) :
    (mergeLoop k queue arena).1.length = queue.length - min k (queue.length - 1) := by
  induction k generalizing queue arena with
  | zero => simp [mergeLoop]
  | succ n ih =>
    match queue with
    | [] => simp [mergeLoop]
    | [_] => simp [mergeLoop]
    | a :: b :: rest =>
      simp only [mergeLoop, ih, insertAfter_length, List.length_cons]
      omega

/-- The one entry that remains after a build is the root (rule R141). -/
theorem buildTree_forest {table : List (Byte × Long)} (h : table ≠ []) :
    ∃ weight, Forest (leavesOf table) [⟨weight, (buildTree table).2⟩] (buildTree table).1 := by
  have hf := (forest_initial h).mergeLoop (table.length - 1)
  have hone : (mergeLoop (table.length - 1) (initialQueue table) (leavesOf table)).1.length = 1 := by
    have := List.length_pos_iff.mpr h
    rw [mergeLoop_queue_length, initialQueue_length]
    omega
  obtain ⟨e, he⟩ := List.length_eq_one_iff.mp hone
  exact ⟨e.weight, by simpa [buildTree, he] using hf⟩

/-- A forest of one tree that has used its `2n - 1` slots is a tree in the form of rule R40. -/
theorem Forest.treeOver {table : List (Byte × Long)} {arena : List Node} {e : QueueEntry}
    (h : Forest (leavesOf table) [e] arena) (hn : 2 ≤ table.length) (hlen : arena.length = 2 * table.length - 1)
    (hfit : arena.length ≤ 512) (hasc : (table.map (fun e => e.1)).Pairwise (fun a b => a.toNat < b.toNat)) :
    TreeOver table.length arena e.node := by
  have hleaves : leafSymbols (arena.take table.length) = table.map (fun e => e.1) := by
    have := List.prefix_iff_eq_take.mp h.leavesFirst
    rw [← leafSymbols_leavesOf, this]
    simp [leavesOf]
  have hroot : e.node = BitVec.ofNat 9 (2 * table.length - 2) := by
    have := List.mem_singleton.mp h.newest
    rw [← this, hlen, Nat.sub_sub]
  have hrefs : (childRefs arena).Perm (slotIndices (2 * table.length - 2)) := by
    have hs : arena.length = 2 * table.length - 2 + 1 := by omega
    have := h.slots
    rw [hs, slotIndices_succ, List.map_singleton, hroot] at this
    exact (List.perm_append_right_iff _).mp this
  refine ⟨hn, hlen, by simp [hleaves], hleaves ▸ hasc, fun k hk => ?_, ?_, fun i hi => ?_⟩
  · exact h.internals _ (by simp [leavesOf]) (by omega)
  · rw [hroot, BitVec.toNat_ofNat]
    omega
  · rw [hrefs.count_eq]
    exact List.count_eq_one_of_mem (slotIndices_nodup (by omega)) (mem_slotIndices hi)

/-- Rules R40 and R141: what is built from a table of ascending symbols is a tree over these symbols. -/
theorem buildTree_treeOver {table : List (Byte × Long)} (hn : 2 ≤ table.length) (hfit : 2 * table.length - 1 ≤ 512)
    (hasc : (table.map (fun e => e.1)).Pairwise (fun a b => a.toNat < b.toNat)) :
    TreeOver table.length (buildTree table).1 (buildTree table).2 := by
  obtain ⟨weight, h⟩ := buildTree_forest (table := table) (by rintro rfl; simp at hn)
  have hlen : (buildTree table).1.length = 2 * table.length - 1 := by
    rw [buildTree_arena_length]
    omega
  exact h.treeOver hn hlen (hlen ▸ hfit) hasc

theorem allSymbols_ascending : allSymbols.Pairwise (fun a b => a.toNat < b.toNat) := by
  refine List.pairwise_map.mpr (List.pairwise_lt_range.imp_of_mem fun ha hb hab => ?_)
  have ha := List.mem_range.mp ha
  have hb := List.mem_range.mp hb
  simp only [Config.alphabet] at ha hb
  simp only [BitVec.toNat_ofNat]
  omega

/-- The frequency table lists its symbols in ascending order (rules R37, R135). -/
theorem freqTable_ascending (s : State) :
    (s.freqTable.map (fun e => e.1)).Pairwise (fun a b => a.toNat < b.toNat) := by
  rw [← countedSymbols_eq]
  exact allSymbols_ascending.filter _

end Sys2Proof
end

section
/-! PROOF. Every command, every host action and every step keeps the invariant. -/

namespace Sys2Proof

open Sys2Proof.Machine

theorem Inv.wf {s : State} (h : Inv s) : Memory.wf s = true := Memory.wf_iff.mpr ⟨h.wFits, h.arenaFits⟩

/-- The invariant does not depend on `START`, `DLEN`, `COUNT`, `CMD` and the model's own fields; it lets `W` be any bytes that
fit and `STATUS` any legal code. -/
theorem Inv.update {s : State} {w : List Byte} {start dlen : Long} {count : Vector Long 256} {cmd : Option Byte}
    {status : Byte} {pending : List HostAction} {replies : List Reply} (h : Inv s) (hw : w.length ≤ s.cfgWcap.toNat)
    (hs : status.toNat ≤ 10) :
    Inv { s with w := w, start := start, dlen := dlen, count := count, cmd := cmd, status := status,
                 pending := pending, replies := replies } :=
  { h with wFits := hw, statusLegal := hs }

theorem Inv.finish {s : State} (h : Inv s) (k : ErrorKind) : Inv (s.finish (errorCode k)) :=
  h.update h.wFits (errorCode_range k).2

theorem Inv.reply {s : State} (h : Inv s) (r : Reply) : Inv (s.reply r) := h.update h.wFits h.statusLegal

theorem Inv.resetBlock {s : State} (h : Inv s) : Inv s.resetBlock := inv_resetBlock h.wcapPos h.acapRange.1

theorem Inv.exec {i : Instr} {s t : State} (h : Inv s) (he : exec i s = .next t) : Inv t := by
  obtain ⟨hw, ha⟩ := Memory.wf_iff.mp (Memory.wf_exec h.wf he)
  have hok : (0#8 : Byte).toNat ≤ 10 := Nat.zero_le _
  cases i with
  | sysRst =>
    obtain rfl := Host.Outcome.next.inj he
    exact h.resetBlock
  | bwtFwd =>
    rcases execBwtFwd_cases he with ⟨k, rfl⟩ | ⟨-, rfl⟩
    · exact h.finish k
    · exact h.update hw hok
  | bwtInv =>
    rcases execBwtInv_cases he with ⟨k, rfl⟩ | ⟨out, -, -, -, -, rfl⟩
    · exact h.finish k
    · exact h.update hw hok
  | mtfEnc =>
    obtain rfl := Host.Outcome.next.inj he
    exact h.update hw hok
  | mtfDec =>
    obtain rfl := Host.Outcome.next.inj he
    exact h.update hw hok
  | hufBuild =>
    rcases execHufBuild_cases he with ⟨k, rfl⟩ | ⟨hn, hfit, rfl⟩
    · exact h.finish k
    · have hmax := h.acapRange.2
      exact
        { h with
          arenaFits := ha
          statusLegal := hok
          treePresent := fun _ => ⟨_, buildTree_treeOver hn (by omega) (freqTable_ascending s)⟩
          treeAbsent := nofun
          codePresent := nofun
          codeAbsent := fun _ => rfl }
  | hufGen =>
    rcases execHufGen_cases he with ⟨k, rfl⟩ | ⟨code, hv, hcode, rfl⟩
    · exact h.finish k
    · exact
        { h with
          statusLegal := hok
          treeAbsent := fun hf => absurd hv (by simpa using hf)
          codePresent := fun _ => hcode
          codeAbsent := nofun }
  | bitPack =>
    rcases execBitPack_cases he with ⟨k, rfl⟩ | ⟨-, -, rfl⟩
    · exact h.finish k
    · exact h.update hw hok
  | bitUnpack =>
    rcases execBitUnpack_cases he with ⟨k, rfl⟩ | ⟨out, -, -, -, rfl⟩
    · exact h.finish k
    · exact h.update hw hok

theorem Inv.performAction {a : HostAction} {s : State} (h : Inv s) (ha : a ≠ .hardwareReset) :
    Inv (performAction a s) := by
  obtain ⟨hw, -⟩ := Memory.wf_iff.mp (Memory.wf_performAction (a := a) h.wf)
  obtain ⟨w, start, dlen, count, cmd, replies, heq⟩ := performAction_writes s ha
  rw [heq] at hw ⊢
  exact h.update hw h.statusLegal

/-- Settles O4: whatever a step has done, by the cases of `step_cases`; the one command that makes a tree is HUF.BUILD. -/
theorem stepKeepsInvariant : Obligations.StepKeepsInvariant := by
  intro s t h hst
  have hpending : ∀ rest, Inv { s with pending := rest } := fun rest => h.update h.wFits h.statusLegal
  rcases step_cases hst with ⟨rest, -, rfl⟩ | ⟨word, u, -, -, hu, rfl⟩ | ⟨-, -, rfl⟩ | ⟨a, rest, -, ha, -, rfl⟩
  · exact (hpending rest).resetBlock
  · rcases runWord_cases hu with ⟨i, -, he⟩ | rfl
    · exact (h.exec he).reply _
    · exact (h.finish _).reply _
  · exact h
  · exact (hpending rest).performAction ha

end Sys2Proof
end

-- The encoding: O7, O8, O9, O15, O17, O18 and O56.

section
/-! PROOF. The command words: decode and encode, and what an illegal word does. -/

namespace Sys2Proof

open Sys2Proof.Machine

theorem decodeWord_encodeWord (i : Instr) : decodeWord (encodeWord i) = .ok i := by
  cases i <;> rfl

/-- Rule R83: only the whole word of a command decodes to it. -/
theorem decodeWord_eq_ok_iff {w : Byte} {i : Instr} : decodeWord w = .ok i ↔ encodeWord i = w :=
  ⟨encodeWord_of_decodeWord, fun h => h ▸ decodeWord_encodeWord i⟩

/-- Settles O8: each word is the one that `encodeWord` gives. -/
theorem commandWordsDecode : Obligations.CommandWordsDecode :=
  ⟨decodeWord_encodeWord .sysRst, decodeWord_encodeWord .bwtFwd, decodeWord_encodeWord .bwtInv,
    decodeWord_encodeWord .mtfEnc, decodeWord_encodeWord .mtfDec, decodeWord_encodeWord .hufBuild,
    decodeWord_encodeWord .hufGen, decodeWord_encodeWord .bitPack, decodeWord_encodeWord .bitUnpack⟩

theorem decodeWord_isNone_iff (w : Byte) :
    (decodeWord w).toOption.isNone = true ↔
      w ∉ [0x00#8, 0x10#8, 0x11#8, 0x20#8, 0x21#8, 0x30#8, 0x31#8, 0x40#8, 0x41#8] := by
  rw [← decodeWord_error_iff]
  cases decodeWord w <;> simp [Except.toOption]

theorem allSymbols_nodup : allSymbols.Nodup :=
  allSymbols_ascending.imp fun h e => Nat.ne_of_lt h (congrArg BitVec.toNat e)

/-- The words that decode are the nine of rule R85. -/
theorem legalWords_perm :
    (allSymbols.filter (fun w => !(decodeWord w).toOption.isNone)).Perm
      [0x00#8, 0x10#8, 0x11#8, 0x20#8, 0x21#8, 0x30#8, 0x31#8, 0x40#8, 0x41#8] := by
  refine (List.perm_ext_iff_of_nodup (allSymbols_nodup.filter _) (by decide)).mpr fun w => ?_
  rw [List.mem_filter, and_iff_right (mem_allSymbols w), Bool.not_eq_true', ← Bool.not_eq_true,
    decodeWord_isNone_iff, Classical.not_not]

/-- Settles O9: of the 256 words, those that are not illegal are the nine of the table. -/
theorem decodeAndEncodeAgree : Obligations.DecodeAndEncodeAgree := by
  refine ⟨fun _ _ => decodeWord_eq_ok_iff, ?_⟩
  have hsum := List.length_eq_length_filter_add (l := allSymbols) (fun w => (decodeWord w).toOption.isNone)
  rw [allSymbols_length, legalWords_perm.length_eq] at hsum
  simp only [List.length_cons, List.length_nil] at hsum
  omega

/-- Settles O7: such a word does not decode, so that the command ends with IllegalCommand, and the response is its code. -/
theorem illegalWordSetsStatusTen : Obligations.IllegalWordSetsStatusTen := by
  intro s word hc hn hw
  obtain ⟨e, he⟩ := (decodeWord_error_iff word).mpr hw
  calc step s = respond (runWord word s) := step_command hn hc
    _ = respond (raise .illegalCommand s) := by rw [runWord_illegal s he]
    _ = _ := rfl

end Sys2Proof
end

section
/-! PROOF. The layouts a host reads: node records, the flags word, code entries. -/

namespace Sys2Proof

open Sys2Proof.Machine

/-- A field put above another one weighs 2^(width of the lower field). -/
theorem toNat_append_eq_add {m n : Nat} (x : BitVec m) (y : BitVec n) :
    (x ++ y).toNat = x.toNat * 2 ^ n + y.toNat := by
  rw [BitVec.toNat_append, ← Nat.shiftLeft_add_eq_or_of_lt y.isLt, Nat.shiftLeft_eq]

/-- Settles O15: each field of the record weighs as `toNat_append_eq_add` says. -/
theorem nodeRecordLayout : Obligations.NodeRecordLayout := by
  refine ⟨rfl, fun sym => ?_, fun l r => ?_⟩
  all_goals
    simp only [nodeRecord, toNat_append_eq_add, BitVec.toNat_ofNat]
    omega

/-- Settles O18: each flag weighs as `toNat_append_eq_add` says. -/
theorem flagsWordLayout : Obligations.FlagsWordLayout := by
  intro s
  simp only [State.flagsWord, toNat_append_eq_add, BitVec.toNat_ofBool, BitVec.toNat_ofNat]
  omega

/-- The last bit of a numeral is the lowest bit of its number (rule R93). -/
theorem natOfBits_concat (bits : Bits) (b : Bool) : natOfBits (bits ++ [b]) = Nat.bit b (natOfBits bits) := by
  rw [Nat.bit_val, natOfBits, List.foldl_append]
  rfl

theorem natOfBits_lt (bits : Bits) : natOfBits bits < 2 ^ bits.length := by
  induction bits using List.reverseRecOn with
  | nil => exact Nat.one_pos
  | append_singleton bits b ih =>
    rw [natOfBits_concat, List.length_append, List.length_singleton]
    exact Nat.bit_lt_two_pow_succ_iff.mpr ih

/-- The first bit of a numeral is the most significant one of its number (rule R93). -/
theorem testBit_natOfBits {bits : Bits} {i : Nat} (h : i < bits.length) :
    (natOfBits bits).testBit (bits.length - 1 - i) = bits[i] := by
  induction bits using List.reverseRecOn with
  | nil => simp at h
  | append_singleton bits b ih =>
    simp only [List.length_append, List.length_singleton, Nat.add_sub_cancel, natOfBits_concat] at h ⊢
    rcases Nat.lt_succ_iff_lt_or_eq.mp h with hlt | rfl
    · have hk : bits.length - i = (bits.length - 1 - i) + 1 := by omega
      rw [List.getElem_append_left hlt, hk, Nat.testBit_bit_succ, ih hlt]
    · rw [Nat.sub_self, Nat.testBit_bit_zero, List.getElem_concat_length rfl]

/-- Settles O17: 255 bits hold the number of a path of at most 255 bits, and 8 bits its length. -/
theorem codeEntryLayout : Obligations.CodeEntryLayout := by
  intro path hlen
  have hpow : 2 ^ path.length ≤ 2 ^ 255 := Nat.pow_le_pow_right (by omega) hlen
  have hvalue : (codeEntry path).2.toNat = natOfBits path :=
    Nat.mod_eq_of_lt (Nat.lt_of_lt_of_le (natOfBits_lt path) hpow)
  refine ⟨Nat.mod_eq_of_lt (by omega), hvalue ▸ natOfBits_lt path, fun i hi => ?_⟩
  rw [BitVec.getLsbD, hvalue, testBit_natOfBits hi, List.getElem?_eq_getElem hi]

end Sys2Proof
end

section
/-! PROOF. The container format: its header fields, and that a container is read back. -/

namespace Sys2Proof

open Sys2Proof.Machine

@[simp] theorem littleEndian_length (n v : Nat) : (littleEndian n v).length = n := by
  induction n generalizing v with
  | zero => rfl
  | succ n ih => simp [littleEndian, ih]

/-- Byte `k` is digit `k` of the number in base 256 (rule R89). -/
theorem littleEndian_getElem? {n k : Nat} (v : Nat) (h : k < n) :
    (littleEndian n v)[k]? = some (BitVec.ofNat 8 (v / 256 ^ k)) := by
  induction n generalizing v k with
  | zero => omega
  | succ n ih =>
    cases k with
    | zero => simp [littleEndian]
    | succ k =>
      rw [littleEndian, List.getElem?_cons_succ, ih _ (Nat.lt_of_succ_lt_succ h), Nat.div_div_eq_div_mul,
        Nat.pow_succ']

/-- Reading the `n` low bytes of a number gives the number modulo 256^n (rule R89). -/
theorem natOfLittleEndian_littleEndian (n v : Nat) : natOfLittleEndian (littleEndian n v) = v % 256 ^ n := by
  induction n generalizing v with
  | zero => simp [littleEndian, natOfLittleEndian, Nat.mod_one]
  | succ n ih =>
    rw [littleEndian, natOfLittleEndian, ih, BitVec.toNat_ofNat, pow_succ' 256 n]
    exact Nat.mod_mul.symm

@[simp] theorem le64_length (v : Long) : (le64 v).length = 8 := littleEndian_length 8 v.toNat

theorem fromLe64_le64 (v : Long) : fromLe64 (le64 v) = v := by
  rw [fromLe64, le64, natOfLittleEndian_littleEndian, Nat.mod_eq_of_lt (b := 256 ^ 8) v.isLt, BitVec.ofNat_toNat,
    BitVec.setWidth_eq]

theorem parseContainer_short {bytes : List Byte} (h : bytes.length < 16) :
    parseContainer bytes = .error .truncatedContainer :=
  if_pos h

/-- Rules R88 and R216: reading the fields of a container that was put together gives them back. -/
theorem parseContainer_assembleContainer (c : Container) : parseContainer (assembleContainer c) = .ok c := by
  obtain ⟨d, p, payload⟩ := c
  have hlong : ¬ (assembleContainer ⟨d, p, payload⟩).length < Config.headerBytes := by
    simp only [assembleContainer, List.length_append, le64_length, Config.headerBytes]
    omega
  have hd : (assembleContainer ⟨d, p, payload⟩).take 8 = le64 d := by
    simp [assembleContainer]
  have hp : ((assembleContainer ⟨d, p, payload⟩).drop 8).take 8 = le64 p := by
    simp [assembleContainer]
  have hpayload : (assembleContainer ⟨d, p, payload⟩).drop Config.headerBytes = payload :=
    List.drop_left' (by simp [Config.headerBytes])
  rw [parseContainer, if_neg hlong, hd, hp, hpayload, fromLe64_le64, fromLe64_le64]

/-- Settles O56: a header field is written digit by digit in base 256, and reading it adds the digits up again. -/
theorem containerRoundTrip : Obligations.ContainerRoundTrip := by
  refine ⟨parseContainer_assembleContainer, fun v k hk => ?_, fun _ => parseContainer_short⟩
  rw [le64, littleEndian_getElem? _ hk, Option.map_some, BitVec.toNat_ofNat]

end Sys2Proof
end

-- The BWT unit: O24 to O30 and O32.

section
/-! PROOF. The suffix order: it is strict on the indices `0..n`, so the sorted list is the only one, and the empty suffix is first. -/

namespace Sys2Proof

open Sys2Proof.Machine

/-- Suffix `i` comes before suffix `j` in the order of rule R13. -/
def SuffixLt (bytes : List Byte) (i j : Nat) : Prop := lexLt (bytes.drop i) (bytes.drop j) = true

section

variable {bytes : List Byte} {i j k : Nat}

theorem SuffixLt.trans (hij : SuffixLt bytes i j) (hjk : SuffixLt bytes j k) : SuffixLt bytes i k := lexLt_trans hij hjk

theorem not_suffixLt_self : ¬ SuffixLt bytes i i := by simp [SuffixLt, lexLt_irrefl]

/-- Different suffixes have different lengths, so one comes before the other (rule R102). -/
theorem suffixLt_total (hij : i < j) (hj : j ≤ bytes.length) : SuffixLt bytes i j ∨ SuffixLt bytes j i := by
  refine lexLt_total fun h => ?_
  have hlen := congrArg List.length h
  simp only [List.length_drop] at hlen
  omega

/-- No suffix comes before the empty one. -/
theorem not_suffixLt_length : ¬ SuffixLt bytes i bytes.length := by
  rw [SuffixLt, List.drop_length]
  cases bytes.drop i <;> simp [lexLt]

/-- The order of two non-empty suffixes is decided by their first bytes, and between equal ones by what follows. -/
theorem SuffixLt.head (h : SuffixLt bytes i j) (hi : i < bytes.length) (hj : j < bytes.length) :
    (bytes.getD i 0#8).toNat < (bytes.getD j 0#8).toNat ∨
    (bytes.getD i 0#8 = bytes.getD j 0#8 ∧ SuffixLt bytes (i + 1) (j + 1)) := by
  rw [SuffixLt, List.drop_eq_getElem_cons hi, List.drop_eq_getElem_cons hj] at h
  simpa [lexLt, SuffixLt, hi, hj] using h

theorem suffixSort_pairwise (bytes : List Byte) : (suffixSort bytes).Pairwise (SuffixLt bytes) := by
  refine stableSort_pairwise (r := SuffixLt bytes) (fun _ _ _ => SuffixLt.trans) (List.pairwise_lt_range.imp_of_mem ?_)
  intro a b _ hb hab
  have hb' := Nat.le_of_lt_succ (List.mem_range.mp hb)
  simp only [suffixLe, Bool.not_eq_true', Bool.not_eq_false']
  exact ⟨fun h => (suffixLt_total hab hb').resolve_right (by simp [SuffixLt, h]), id⟩

/-- Rule R101's order of neighbours is, by transitivity, an order of all entries. -/
theorem isSuffixOrder_iff {sa : List Nat} :
    IsSuffixOrder bytes sa ↔ sa.Perm (List.range (bytes.length + 1)) ∧ sa.Pairwise (SuffixLt bytes) := by
  have : Trans (SuffixLt bytes) (SuffixLt bytes) (SuffixLt bytes) := ⟨SuffixLt.trans⟩
  rw [IsSuffixOrder, ← List.isChain_iff_pairwise, List.isChain_iff_getElem]
  refine and_congr_right fun _ => ⟨fun h r hr => ?_, fun h r i j hi hj => ?_⟩
  · exact h r _ _ (List.getElem?_eq_getElem (by omega)) (List.getElem?_eq_getElem hr)
  · obtain ⟨hr, rfl⟩ := List.getElem?_eq_some_iff.mp hj
    obtain ⟨-, rfl⟩ := List.getElem?_eq_some_iff.mp hi
    exact h r hr

theorem isSuffixOrder_suffixSort (bytes : List Byte) : IsSuffixOrder bytes (suffixSort bytes) :=
  isSuffixOrder_iff.mpr ⟨suffixSort_perm bytes, suffixSort_pairwise bytes⟩

/-- Two suffix orders are rearrangements of each other in one strict order, and so equal (rule R102). -/
theorem isSuffixOrder_iff_eq_suffixSort {sa : List Nat} : IsSuffixOrder bytes sa ↔ sa = suffixSort bytes := by
  refine ⟨fun h => ?_, fun h => h ▸ isSuffixOrder_suffixSort bytes⟩
  obtain ⟨hperm, hsorted⟩ := isSuffixOrder_iff.mp h
  exact List.Perm.eq_of_pairwise (fun a b _ _ hab hba => absurd (hab.trans hba) not_suffixLt_self) hsorted
    (suffixSort_pairwise bytes) (hperm.trans (suffixSort_perm bytes).symm)

theorem mem_suffixSort : i ∈ suffixSort bytes ↔ i ≤ bytes.length := by
  rw [(suffixSort_perm bytes).mem_iff, List.mem_range, Nat.lt_succ_iff]

theorem suffixSort_nodup (bytes : List Byte) : (suffixSort bytes).Nodup :=
  (suffixSort_perm bytes).nodup_iff.mpr List.nodup_range

theorem suffixSort_length (bytes : List Byte) : (suffixSort bytes).length = bytes.length + 1 := by
  rw [(suffixSort_perm bytes).length_eq, List.length_range]

/-- The empty suffix is the least (rule R101): what stands first is not after it. -/
theorem suffixSort_eq_cons (bytes : List Byte) : suffixSort bytes = bytes.length :: (suffixSort bytes).tail := by
  have hmem : bytes.length ∈ suffixSort bytes := mem_suffixSort.mpr le_rfl
  have hsorted := suffixSort_pairwise bytes
  cases hsa : suffixSort bytes with
  | nil => simp [hsa] at hmem
  | cons first rest =>
    rw [hsa] at hmem hsorted
    rcases List.mem_cons.mp hmem with rfl | hrest
    · rfl
    · exact absurd (List.rel_of_pairwise_cons hsorted hrest) not_suffixLt_length

theorem suffixSort_getElem?_zero (bytes : List Byte) : (suffixSort bytes)[0]? = some bytes.length := by
  rw [suffixSort_eq_cons, List.getElem?_cons_zero]

end

/-- Settles O24: the suffixes are strictly ordered, so two sorted rearrangements of the indices are equal, and nothing comes before
the empty suffix. -/
theorem suffixOrderIsUnique : Obligations.SuffixOrderIsUnique :=
  fun bytes => ⟨fun _ => isSuffixOrder_iff_eq_suffixSort, suffixSort_getElem?_zero bytes⟩

end Sys2Proof
end

section
/-! PROOF. The forward transform: the bytes that stand before the suffixes in their order, and the row of suffix 0. -/

namespace Sys2Proof

open Sys2Proof.Machine

/-- The suffixes that a byte stands before, in their order: rule R103 skips suffix 0. -/
def precededSuffixes (bytes : List Byte) : List Nat := (suffixSort bytes).erase 0

theorem filterMap_getElem?_range {α : Type} (l : List α) :
    (List.range l.length).filterMap (fun i => l[i]?) = l := by
  induction l with
  | nil => rfl
  | cons x xs ih =>
    rw [List.length_cons, List.range_succ_eq_map, List.filterMap_cons_some List.getElem?_cons_zero, List.filterMap_map]
    exact congrArg (x :: ·) ih

section

variable {bytes : List Byte} {i k : Nat}

theorem mem_precededSuffixes : i ∈ precededSuffixes bytes ↔ 1 ≤ i ∧ i ≤ bytes.length := by
  rw [precededSuffixes, (suffixSort_nodup bytes).mem_erase_iff, mem_suffixSort, Nat.one_le_iff_ne_zero]

theorem precededSuffixes_nodup (bytes : List Byte) : (precededSuffixes bytes).Nodup :=
  (suffixSort_nodup bytes).erase 0

theorem precededSuffixes_perm (bytes : List Byte) :
    (precededSuffixes bytes).Perm ((List.range bytes.length).map Nat.succ) := by
  simpa [precededSuffixes, List.range_succ_eq_map] using (suffixSort_perm bytes).erase 0

theorem precededSuffixes_length (bytes : List Byte) : (precededSuffixes bytes).length = bytes.length := by
  simpa using (precededSuffixes_perm bytes).length_eq

/-- Without the row of suffix 0 the rows are counted as `row(k)` of rule R109 counts them. -/
theorem precededSuffixes_getElem? (bytes : List Byte) (k : Nat) :
    (precededSuffixes bytes)[k]? = (suffixSort bytes)[inverseRow (startIndex (suffixSort bytes)) k]? := by
  rw [precededSuffixes, ← List.eraseIdx_idxOf_eq_erase, List.getElem?_eraseIdx, inverseRow, startIndex]
  split <;> rfl

theorem permutedBytes_append (bytes : List Byte) (a b : List Nat) :
    permutedBytes bytes (a ++ b) = permutedBytes bytes a ++ permutedBytes bytes b := by
  simp [permutedBytes]

/-- Suffix 0 gives no byte (rule R103). -/
theorem permutedBytes_zero_cons (bytes : List Byte) (sa : List Nat) :
    permutedBytes bytes (0 :: sa) = permutedBytes bytes sa := rfl

/-- Rule R103: suffix 0 gives no byte, and every other suffix gives the byte before it. -/
theorem permutedBytes_eq_map (bytes : List Byte) :
    permutedBytes bytes (suffixSort bytes) = (precededSuffixes bytes).map (fun i => bytes.getD (i - 1) 0#8) := by
  obtain ⟨before, after, -, hsort, herase⟩ := List.exists_erase_eq (mem_suffixSort.mpr (Nat.zero_le bytes.length))
  rw [hsort, permutedBytes_append, permutedBytes_zero_cons, ← permutedBytes_append, ← herase, ← List.filterMap_eq_map]
  refine List.filterMap_congr fun i hi => ?_
  obtain ⟨hpos, hle⟩ := mem_precededSuffixes.mp hi
  have hlt : i - 1 < bytes.length := by omega
  simp [Nat.ne_of_gt hpos, hlt]

/-- Rule R106: over the indices in any order, each byte is the one before exactly one suffix. -/
theorem permutedBytes_perm (bytes : List Byte) : (permutedBytes bytes (suffixSort bytes)).Perm bytes := by
  have hrange : permutedBytes bytes (List.range (bytes.length + 1)) = bytes := by
    rw [List.range_succ_eq_map, permutedBytes_zero_cons, permutedBytes, List.filterMap_map]
    exact filterMap_getElem?_range bytes
  exact ((suffixSort_perm bytes).filterMap _).trans (.of_eq hrange)

theorem suffixSort_getElem?_startIndex (bytes : List Byte) :
    (suffixSort bytes)[startIndex (suffixSort bytes)]? = some 0 :=
  List.getElem?_idxOf (mem_suffixSort.mpr (Nat.zero_le _))

theorem startIndex_le (bytes : List Byte) : startIndex (suffixSort bytes) ≤ bytes.length := by
  obtain ⟨hlt, -⟩ := List.getElem?_eq_some_iff.mp (suffixSort_getElem?_startIndex bytes)
  rw [suffixSort_length] at hlt
  exact Nat.le_of_lt_succ hlt

/-- Rule R105: row 0 holds the empty suffix, which is not suffix 0 of a non-empty sequence. -/
theorem one_le_startIndex (h : bytes ≠ []) : 1 ≤ startIndex (suffixSort bytes) := by
  refine Nat.one_le_iff_ne_zero.mpr fun hzero => ?_
  have hrow := suffixSort_getElem?_startIndex bytes
  rw [hzero, suffixSort_getElem?_zero] at hrow
  exact h (List.length_eq_zero_iff.mp (Option.some.inj hrow))

/-- `START` holds the row of suffix 0 whole when the bytes fit a capacity that is a register's value. -/
theorem toNat_startIndex {cap : Long} (h : bytes.length ≤ cap.toNat) :
    (BitVec.ofNat 64 (startIndex (suffixSort bytes)) : Long).toNat = startIndex (suffixSort bytes) := by
  rw [BitVec.toNat_ofNat, Nat.mod_eq_of_lt (((startIndex_le bytes).trans h).trans_lt cap.isLt)]

end

theorem exec_bwtFwd_empty {s : State} (h : s.w = []) :
    exec .bwtFwd s = .next { s with status := 1#8, cmd := none } :=
  if_pos (List.length_eq_zero_iff.mpr h)

theorem exec_bwtFwd_nonempty {s : State} (h : s.w ≠ []) :
    exec .bwtFwd s = .next { s with
      w := permutedBytes s.w (suffixSort s.w)
      start := BitVec.ofNat 64 (startIndex (suffixSort s.w)), status := 0#8, cmd := none } :=
  if_neg (mt List.length_eq_zero_iff.mp h)

theorem exec_bwtInv_empty {s : State} (h : s.w = []) :
    exec .bwtInv s = .next { s with status := 1#8, cmd := none } :=
  if_pos (List.length_eq_zero_iff.mpr h)

/-- Settles O25: the suffix order is the model's own, and the byte written at `k` is the one before the `k`-th suffix that has one. -/
theorem bwtFwdPermutesBySuffixOrder : Obligations.BwtFwdPermutesBySuffixOrder := by
  intro s hne hfit
  refine ⟨_, _, _, isSuffixOrder_suffixSort s.w, suffixSort_getElem?_startIndex s.w, exec_bwtFwd_nonempty hne,
    toNat_startIndex hfit, permutedBytes_length s.w, fun k hk => ?_⟩
  have hrow : (precededSuffixes s.w)[k]? = some ((precededSuffixes s.w)[k]'(by rwa [precededSuffixes_length])) :=
    List.getElem?_eq_getElem _
  obtain ⟨hpos, hle⟩ := mem_precededSuffixes.mp (List.mem_of_getElem? hrow)
  refine ⟨_, (precededSuffixes_getElem? s.w k).symm.trans hrow, hpos, ?_⟩
  rw [permutedBytes_eq_map, List.getElem?_map, hrow, Option.map_some, List.getElem?_eq_getElem (by omega),
    List.getD_eq_getElem]

/-- Settles O26: row 0 is not the row of suffix 0, and each byte stands before exactly one suffix. -/
theorem bwtFwdStartInRangeAndRearranges : Obligations.BwtFwdStartInRangeAndRearranges := by
  intro s hne hfit
  have hstart := toNat_startIndex hfit
  exact ⟨_, exec_bwtFwd_nonempty hne, rfl, hstart.symm ▸ one_le_startIndex hne, hstart.symm ▸ startIndex_le s.w,
    permutedBytes_length s.w, (permutedBytes_perm s.w).count_eq⟩

/-- Settles O27: both commands test the length first. -/
theorem bwtEmptyBufferRaisesEmptyInput : Obligations.BwtEmptyBufferRaisesEmptyInput :=
  fun _ h => ⟨exec_bwtFwd_empty h, exec_bwtInv_empty h⟩

end Sys2Proof
end

section
/-! PROOF. The reverse transform: the table is the one list of the pairs in strict order, and the walk steps from row to row one to
one, so that it visits no row twice. -/

namespace Sys2Proof

open Sys2Proof.Machine

/-! ## The table -/

/-- The order of rule R109's table: bytes ascending, equal bytes with ascending positions. -/
def PairLt (a b : Byte × Nat) : Prop := a.1.toNat < b.1.toNat ∨ (a.1 = b.1 ∧ a.2 < b.2)

theorem PairLt.trans {a b c : Byte × Nat} (hab : PairLt a b) (hbc : PairLt b c) : PairLt a c := by
  rcases hab with hab | ⟨hab, hpos⟩ <;> rcases hbc with hbc | ⟨hbc, hpos'⟩
  · exact .inl (hab.trans hbc)
  · exact .inl (hbc ▸ hab)
  · exact .inl (hab ▸ hbc)
  · exact .inr ⟨hab.trans hbc, hpos.trans hpos'⟩

theorem not_pairLt_self {a : Byte × Nat} : ¬ PairLt a a := by simp [PairLt]

theorem inversePairs_perm (l : List Byte) : (inversePairs l).Perm l.zipIdx := stableSort_perm _

theorem inversePairs_length (l : List Byte) : (inversePairs l).length = l.length := by
  rw [(inversePairs_perm l).length_eq, List.length_zipIdx]

theorem inversePairs_map_snd_perm (l : List Byte) : ((inversePairs l).map Prod.snd).Perm (List.range l.length) := by
  simpa [List.range_eq_range'] using (inversePairs_perm l).map Prod.snd

theorem inversePairs_map_fst_perm (l : List Byte) : ((inversePairs l).map Prod.fst).Perm l := by
  simpa using (inversePairs_perm l).map Prod.fst

theorem zipIdx_pairwise_position {α : Type} (l : List α) : l.zipIdx.Pairwise (fun a b => a.2 < b.2) := by
  rw [← List.pairwise_map (f := Prod.snd) (R := (· < ·)), List.zipIdx_map_snd]
  exact List.pairwise_lt_range'

/-- Of two pairs the sort moves the later one before the earlier one only if its byte is below. -/
theorem inversePairs_pairwise (l : List Byte) : (inversePairs l).Pairwise PairLt := by
  refine stableSort_pairwise (r := PairLt) (fun _ _ _ => PairLt.trans) ((zipIdx_pairwise_position l).imp ?_)
  intro a b hpos
  simp only [decide_eq_true_eq, decide_eq_false_iff_not, Nat.not_le]
  refine ⟨fun hle => ?_, .inl⟩
  rcases hle.lt_or_eq with hlt | heq
  · exact .inl hlt
  · exact .inr ⟨BitVec.eq_of_toNat_eq heq, hpos⟩

/-- A strict order leaves one way to arrange the pairs. -/
theorem eq_inversePairs {l : List Byte} {t : List (Byte × Nat)} (hperm : t.Perm l.zipIdx) (hsorted : t.Pairwise PairLt) :
    t = inversePairs l :=
  List.Perm.eq_of_pairwise (fun _ _ _ _ hab hba => absurd (hab.trans hba) not_pairLt_self) hsorted
    (inversePairs_pairwise l) (hperm.trans (inversePairs_perm l).symm)

/-- Settles O28: the stable sort puts the pairs in the strict order by byte and then by position. -/
theorem inverseTableIsStablySorted : Obligations.InverseTableIsStablySorted :=
  fun l => ⟨inversePairs_perm l, inversePairs_pairwise l⟩

/-! ## The rows -/

theorem inverseRow_ne (p k : Nat) : inverseRow p k ≠ p := by
  rw [inverseRow]
  split <;> omega

theorem inverseRow_le {p k n : Nat} (h : k < n) : inverseRow p k ≤ n := by
  rw [inverseRow]
  split <;> omega

theorem inverseRow_injective (p : Nat) : Function.Injective (inverseRow p) := by
  intro a b h
  simp only [inverseRow] at h
  split at h <;> split at h <;> omega

/-- The byte that row `r` begins with, by the table. -/
def rowByte (l : List Byte) (r : Nat) : Option Byte := (inversePairs l)[r - 1]?.map Prod.fst

/-- The rows on which the walk stands after `j`, `j + 1`, ..., `j + k - 1` steps. -/
def walkRows (l : List Byte) (p j k : Nat) : List Nat := (List.range' j k).map (walkRow l p)

section

variable {l : List Byte} {p i j k r : Nat} {e : Byte × Nat}

theorem exists_pair_of_row (hr : r ≠ 0) (hle : r ≤ l.length) : ∃ e, (inversePairs l)[r - 1]? = some e :=
  ⟨_, List.getElem?_eq_getElem (by rw [inversePairs_length]; omega)⟩

theorem pair_position_lt (h : (inversePairs l)[k]? = some e) : e.2 < l.length :=
  List.mem_range.mp ((inversePairs_map_snd_perm l).mem_iff.mp (List.mem_map_of_mem (List.mem_of_getElem? h)))

/-- No position stands in the table twice. -/
theorem pair_position_injective {f : Byte × Nat} (he : (inversePairs l)[i]? = some e) (hf : (inversePairs l)[j]? = some f)
    (h : e.2 = f.2) : i = j := by
  have hnodup : ((inversePairs l).map Prod.snd).Nodup := (inversePairs_map_snd_perm l).nodup_iff.mpr List.nodup_range
  obtain ⟨hi, -⟩ := List.getElem?_eq_some_iff.mp he
  refine (List.getElem?_inj (by rwa [List.length_map]) hnodup).mp ?_
  rw [List.getElem?_map, List.getElem?_map, he, hf, Option.map_some, Option.map_some, h]

theorem walkRow_succ (hr : walkRow l p j ≠ 0) (he : (inversePairs l)[walkRow l p j - 1]? = some e) :
    walkRow l p (j + 1) = inverseRow p e.2 := by
  simp [walkRow, hr, he]

theorem walkRow_ne_zero_of_succ (h : walkRow l p (j + 1) ≠ 0) : walkRow l p j ≠ 0 :=
  fun hzero => h (by simp [walkRow, hzero])

theorem walkRow_le (hp : p ≤ l.length) (j : Nat) : walkRow l p j ≤ l.length := by
  induction j with
  | zero => exact hp
  | succ j ih =>
    by_cases hr : walkRow l p j = 0
    · simp [walkRow, hr]
    · obtain ⟨e, he⟩ := exists_pair_of_row hr ih
      rw [walkRow_succ hr he]
      exact inverseRow_le (pair_position_lt he)

/-- A step leads to no row twice, and never to row `p` (rule R110). -/
theorem walkRow_succ_injective (hp : p ≤ l.length) (hi : walkRow l p i ≠ 0) (hj : walkRow l p j ≠ 0)
    (h : walkRow l p (i + 1) = walkRow l p (j + 1)) : walkRow l p i = walkRow l p j := by
  obtain ⟨e, he⟩ := exists_pair_of_row hi (walkRow_le hp i)
  obtain ⟨f, hf⟩ := exists_pair_of_row hj (walkRow_le hp j)
  rw [walkRow_succ hi he, walkRow_succ hj hf] at h
  have := pair_position_injective he hf (inverseRow_injective p h)
  omega

theorem walkRow_succ_ne_start (hp : p ≤ l.length) (hj : walkRow l p j ≠ 0) : walkRow l p (j + 1) ≠ p := by
  obtain ⟨e, he⟩ := exists_pair_of_row hj (walkRow_le hp j)
  rw [walkRow_succ hj he]
  exact inverseRow_ne p e.2

/-- A row visited twice would lead back, step by step, to a second visit of row `p`. -/
theorem walkRow_ne_of_lt (hp : p ≤ l.length) (hij : i < j) (hj : walkRow l p j ≠ 0) : walkRow l p i ≠ walkRow l p j := by
  induction i generalizing j with
  | zero =>
    obtain ⟨d, rfl⟩ := Nat.exists_eq_add_one_of_ne_zero (Nat.ne_of_gt hij)
    exact (walkRow_succ_ne_start hp (walkRow_ne_zero_of_succ hj)).symm
  | succ i ih =>
    obtain ⟨d, rfl⟩ := Nat.exists_eq_add_one_of_ne_zero (Nat.ne_zero_of_lt hij)
    have hd := walkRow_ne_zero_of_succ hj
    intro h
    exact ih (Nat.lt_of_succ_lt_succ hij) hd
      (walkRow_succ_injective hp (walkRow_ne_zero_of_succ (h ▸ hj)) hd h)

/-- As long as the walk has not come to row 0 its rows are different ones of the rows `1..n`. -/
theorem walkRows_subperm (hp : p ≤ l.length) (hk : ∀ j < k, walkRow l p j ≠ 0) :
    (walkRows l p 0 k).Subperm (List.range' 1 l.length) := by
  rw [walkRows, ← List.range_eq_range']
  refine List.Nodup.subperm (List.pairwise_map.mpr ?_) fun r hr => ?_
  · exact List.pairwise_lt_range.imp_of_mem fun _ hj hij =>
      walkRow_ne_of_lt hp hij (hk _ (List.mem_range.mp hj))
  · obtain ⟨j, hj, rfl⟩ := List.mem_map.mp hr
    have hpos := hk j (List.mem_range.mp hj)
    have hle := walkRow_le hp j
    rw [List.mem_range'_1]
    omega

theorem steps_le_length (hp : p ≤ l.length) (hk : ∀ j < k, walkRow l p j ≠ 0) : k ≤ l.length := by
  simpa [walkRows] using (walkRows_subperm hp hk).length_le

theorem exists_walkRow_eq_zero (hp : p ≤ l.length) : ∃ m, walkRow l p m = 0 := by
  by_contra h
  have := steps_le_length (k := l.length + 1) hp fun j _ hj => h ⟨j, hj⟩
  omega

theorem zero_mem_walkRows : 0 ∈ walkRows l p 0 k ↔ ∃ j < k, walkRow l p j = 0 := by
  simp [walkRows, ← List.range_eq_range']

/-! ## The walk -/

/-- The walk is invalid when it stands on row 0 before a step, and emits the bytes of its rows otherwise (rule R109). -/
theorem inverseWalk_eq (hp : p ≤ l.length) (k j : Nat) :
    inverseWalk (inversePairs l) p k (walkRow l p j) =
      if 0 ∈ walkRows l p j k then none else some ((walkRows l p j k).filterMap (rowByte l)) := by
  induction k generalizing j with
  | zero => rfl
  | succ k ih =>
    have hrows : walkRows l p j (k + 1) = walkRow l p j :: walkRows l p (j + 1) k := rfl
    rw [hrows, inverseWalk]
    by_cases hr : walkRow l p j = 0
    · simp [hr]
    · obtain ⟨e, he⟩ := exists_pair_of_row hr (walkRow_le hp j)
      have hbyte : rowByte l (walkRow l p j) = some e.1 := by rw [rowByte, he, Option.map_some]
      simp only [he, hr, if_false, ← walkRow_succ hr he, ih, List.mem_cons, Ne.symm hr, false_or,
        List.filterMap_cons_some hbyte]
      split <;> rfl

theorem inverseBwt_eq (hp : p ≤ l.length) :
    inverseBwt p l =
      if 0 ∈ walkRows l p 0 l.length then none else some ((walkRows l p 0 l.length).filterMap (rowByte l)) :=
  inverseWalk_eq hp l.length 0

/-- The rows `1..n` begin with the bytes of the table. -/
theorem rowBytes_eq (l : List Byte) :
    (List.range' 1 l.length).filterMap (rowByte l) = (inversePairs l).map Prod.fst := by
  rw [← filterMap_getElem?_range ((inversePairs l).map Prod.fst), List.length_map, inversePairs_length,
    List.range'_eq_map_range, List.filterMap_map]
  refine List.filterMap_congr fun i _ => ?_
  rw [Function.comp_apply, rowByte, Nat.add_sub_cancel_left, List.getElem?_map]

/-- An accepted walk stands on every row once, so that it emits each byte as often as the table holds it. -/
theorem inverseBwt_perm {out : List Byte} (hp : p ≤ l.length) (h : inverseBwt p l = some out) : out.Perm l := by
  rw [inverseBwt_eq hp] at h
  split at h
  · cases h
  next hzero =>
    obtain rfl := Option.some.inj h
    have hrows : (walkRows l p 0 l.length).Perm (List.range' 1 l.length) :=
      (walkRows_subperm hp fun j hj hr => hzero (zero_mem_walkRows.mpr ⟨j, hj, hr⟩)).perm_of_length_le
        (by simp [walkRows])
    exact ((hrows.filterMap _).trans (.of_eq (rowBytes_eq l))).trans (inversePairs_map_fst_perm l)

end

theorem exec_bwtInv_accepted {s : State} {out : List Byte} (hne : s.w ≠ []) (hpos : 1 ≤ s.start.toNat)
    (hle : s.start.toNat ≤ s.w.length) (h : inverseBwt s.start.toNat s.w = some out) :
    exec .bwtInv s = .next { s with w := out, status := 0#8, cmd := none } := by
  change execBwtInv s = _
  rw [execBwtInv, if_neg (mt List.length_eq_zero_iff.mp hne), if_neg (by omega), h]
  rfl

/-- Settles O29: with `m` the first step after which the walk stands on row 0. The rows before are different ones of `1..n`, and the
walk of `n` steps is accepted exactly when row 0 does not come before its end. -/
theorem inverseWalkReachesRowZeroOnce : Obligations.InverseWalkReachesRowZeroOnce := by
  intro l p hpos hp
  have hex := exists_walkRow_eq_zero hp
  have hbefore : ∀ j < Nat.find hex, walkRow l p j ≠ 0 := fun _ => Nat.find_min hex
  have hle := steps_le_length hp hbefore
  refine ⟨Nat.find hex, ?_, hle, Nat.find_spec hex, fun j hj => ⟨?_, walkRow_le hp j⟩,
    fun i j hij hj => walkRow_ne_of_lt hp hij (hbefore j hj), ?_⟩
  · exact (Nat.find_pos hex).mpr (Nat.ne_of_gt hpos)
  · exact Nat.one_le_iff_ne_zero.mpr (hbefore j hj)
  · have hearly : 0 ∈ walkRows l p 0 l.length ↔ Nat.find hex < l.length :=
      zero_mem_walkRows.trans (Nat.find_lt_iff hex _).symm
    rw [inverseBwt_eq hp]
    split
    next h => simpa using (hearly.mp h).ne
    next h => simpa using hle.antisymm (Nat.not_lt.mp (mt hearly.mpr h))

/-- Settles O30: the accepted walk stands on every row once. -/
theorem bwtInvReplacesWByTheWalk : Obligations.BwtInvReplacesWByTheWalk :=
  fun _ _ hne hpos hle h => ⟨exec_bwtInv_accepted hne hpos hle h, inverseBwt_perm hle h⟩

end Sys2Proof
end

section
/-! PROOF. The round trip: the table of the permuted bytes lists the non-empty suffixes in their order, each with its first byte and the
position of the suffix that follows it, so that the inverse walk goes from suffix 0 to suffix 1 and on to suffix `n`. -/

namespace Sys2Proof

open Sys2Proof.Machine

/-- What the table of rule R109 holds for the row of suffix `i` (rule R110): its first byte, and where the permuted bytes hold the
byte before suffix `i + 1`, which is the same occurrence. -/
def suffixPair (bytes : List Byte) (i : Nat) : Byte × Nat :=
  (bytes.getD i 0#8, (precededSuffixes bytes).idxOf (i + 1))

section

variable {bytes : List Byte} {i j : Nat}

theorem suffixSort_tail_perm (bytes : List Byte) : (suffixSort bytes).tail.Perm (List.range bytes.length) := by
  have hperm := suffixSort_perm bytes
  rw [suffixSort_eq_cons, List.range_succ] at hperm
  exact (hperm.trans (List.perm_append_singleton _ _)).cons_inv

/-- The positions of the preceded suffixes follow their order. -/
theorem idxOf_precededSuffixes_lt (hi : i ∈ precededSuffixes bytes) (hj : j ∈ precededSuffixes bytes)
    (h : SuffixLt bytes i j) : (precededSuffixes bytes).idxOf i < (precededSuffixes bytes).idxOf j := by
  have hsorted := List.pairwise_iff_getElem.mp ((suffixSort_pairwise bytes).erase 0)
  rcases Nat.lt_trichotomy ((precededSuffixes bytes).idxOf i) ((precededSuffixes bytes).idxOf j) with hlt | heq | hgt
  · exact hlt
  · obtain rfl := (List.idxOf_inj hi).mp heq
    exact absurd h not_suffixLt_self
  · have hji := hsorted _ _ (List.idxOf_lt_length_of_mem hj) (List.idxOf_lt_length_of_mem hi) hgt
    rw [List.getElem_idxOf, List.getElem_idxOf] at hji
    exact absurd (h.trans hji) not_suffixLt_self

theorem zipIdx_eq_map_idxOf {l : List Nat} (h : l.Nodup) : l.zipIdx = l.map (fun x => (x, l.idxOf x)) :=
  List.ext_getElem (by simp) fun i hi _ => by simp [h.idxOf_getElem]

/-- The permuted bytes with their positions are the pairs of the suffixes `0..n-1`. -/
theorem zipIdx_permutedBytes_perm (bytes : List Byte) :
    (permutedBytes bytes (suffixSort bytes)).zipIdx.Perm ((List.range bytes.length).map (suffixPair bytes)) := by
  rw [permutedBytes_eq_map, List.zipIdx_map, zipIdx_eq_map_idxOf (precededSuffixes_nodup bytes), List.map_map]
  refine ((precededSuffixes_perm bytes).map _).trans (.of_eq ?_)
  rw [List.map_map]
  rfl

/-- Suffixes with the same first byte are in the order of what follows it, and the stable sort records that order (rule R110). -/
theorem inversePairs_permutedBytes (bytes : List Byte) :
    inversePairs (permutedBytes bytes (suffixSort bytes)) = (suffixSort bytes).tail.map (suffixPair bytes) := by
  refine (eq_inversePairs ?_ ?_).symm
  · exact ((suffixSort_tail_perm bytes).map _).trans (zipIdx_permutedBytes_perm bytes).symm
  · refine List.pairwise_map.mpr ((suffixSort_pairwise bytes).tail.imp_of_mem fun hi hj hij => ?_)
    have hi' := List.mem_range.mp ((suffixSort_tail_perm bytes).mem_iff.mp hi)
    have hj' := List.mem_range.mp ((suffixSort_tail_perm bytes).mem_iff.mp hj)
    rcases hij.head hi' hj' with hlt | ⟨heq, hnext⟩
    · exact .inl hlt
    · exact .inr ⟨heq, idxOf_precededSuffixes_lt (mem_precededSuffixes.mpr ⟨Nat.succ_pos _, hi'⟩)
        (mem_precededSuffixes.mpr ⟨Nat.succ_pos _, hj'⟩) hnext⟩

/-- A row of a suffix that is not empty is not row 0. -/
theorem row_ne_zero {r : Nat} (hi : i < bytes.length) (hr : (suffixSort bytes)[r]? = some i) : r ≠ 0 := by
  rintro rfl
  rw [suffixSort_getElem?_zero] at hr
  exact Nat.ne_of_gt hi (Option.some.inj hr)

theorem pair_of_row {r : Nat} (hi : i < bytes.length) (hr : (suffixSort bytes)[r]? = some i) :
    (inversePairs (permutedBytes bytes (suffixSort bytes)))[r - 1]? = some (suffixPair bytes i) := by
  obtain ⟨r, rfl⟩ := Nat.exists_eq_add_one_of_ne_zero (row_ne_zero hi hr)
  rw [inversePairs_permutedBytes, List.getElem?_map, Nat.add_sub_cancel, List.getElem?_tail, hr, Option.map_some]

/-- The position that the pair of suffix `i` names is that of the row of suffix `i + 1`. -/
theorem row_of_next_suffix (hi : i < bytes.length) :
    (suffixSort bytes)[inverseRow (startIndex (suffixSort bytes)) (suffixPair bytes i).2]? = some (i + 1) := by
  rw [← precededSuffixes_getElem?]
  exact List.getElem?_idxOf (mem_precededSuffixes.mpr ⟨Nat.succ_pos i, hi⟩)

/-- After `j` steps the walk stands on the row of suffix `j`. -/
theorem suffix_of_walkRow (h : j ≤ bytes.length) :
    (suffixSort bytes)[walkRow (permutedBytes bytes (suffixSort bytes)) (startIndex (suffixSort bytes)) j]? = some j := by
  induction j with
  | zero => exact suffixSort_getElem?_startIndex bytes
  | succ j ih =>
    have hrow := ih (Nat.le_of_succ_le h)
    rw [walkRow_succ (row_ne_zero h hrow) (pair_of_row h hrow)]
    exact row_of_next_suffix h

/-- Rule R111 for the two functions: the walk emits the first bytes of the suffixes `0..n-1`. -/
theorem inverseBwt_permutedBytes (bytes : List Byte) :
    inverseBwt (startIndex (suffixSort bytes)) (permutedBytes bytes (suffixSort bytes)) = some bytes := by
  have hlen := permutedBytes_length bytes
  rw [inverseBwt_eq ((startIndex_le bytes).trans_eq hlen.symm), hlen, if_neg]
  · conv_rhs => rw [← filterMap_getElem?_range bytes]
    rw [walkRows, ← List.range_eq_range', List.filterMap_map]
    refine congrArg some (List.filterMap_congr fun j hj => ?_)
    have hj' := List.mem_range.mp hj
    rw [Function.comp_apply, rowByte, pair_of_row hj' (suffix_of_walkRow hj'.le), Option.map_some, suffixPair,
      List.getD_eq_getElem _ _ hj', List.getElem?_eq_getElem hj']
  · rw [zero_mem_walkRows]
    rintro ⟨j, hj, hzero⟩
    exact row_ne_zero hj (suffix_of_walkRow hj.le) hzero

end

/-- Settles O32: BWT.FWD leaves a `START` in range and bytes whose inverse walk emits the original ones. -/
theorem bwtRoundTrip : Obligations.BwtRoundTrip := by
  intro s hne hfit
  have hstart := toNat_startIndex hfit
  have hlen := permutedBytes_length s.w
  refine ⟨_, _, exec_bwtFwd_nonempty hne, rfl, exec_bwtInv_accepted (out := s.w) ?_ ?_ ?_ ?_, rfl, rfl⟩
  · exact List.ne_nil_of_length_pos (hlen ▸ List.length_pos_iff.mpr hne)
  · exact hstart.symm ▸ one_le_startIndex hne
  · exact hstart.symm ▸ hlen.symm ▸ startIndex_le s.w
  · exact hstart.symm ▸ inverseBwt_permutedBytes s.w

end Sys2Proof
end

-- The MTF unit: O33 to O37.

section
/-! PROOF. The recency list of the MTF unit: a front-move permutes the list, and the list after a sequence in closed form. -/

namespace Sys2Proof

open Sys2Proof.Machine

/-- The front-move of rule R121, by the byte that moves. -/
def moveToFront (list : List Byte) (b : Byte) : List Byte := b :: list.erase b

theorem symbolListUpdate_idxOf {list : List Byte} {b : Byte} (h : b ∈ list) :
    symbolListUpdate list (list.idxOf b) = moveToFront list b := by
  rw [symbolListUpdate, List.getElem?_idxOf h, moveToFront, ← List.eraseIdx_idxOf_eq_erase,
    List.eraseIdx_eq_take_drop_succ]

theorem identityList_perm : identityList.Perm allSymbols := .refl _

/-- A list after a sequence: the bytes of the sequence, the latest occurrence first, and then the others in their old order. -/
theorem foldl_moveToFront {list : List Byte} (h : list.Nodup) (input : List Byte) :
    input.foldl moveToFront list = input.dedup.reverse ++ list.filter (fun x => decide (x ∉ input)) := by
  induction input generalizing list with
  | nil => simp
  | cons b rest ih =>
    have hnodup : (moveToFront list b).Nodup := List.nodup_cons.mpr ⟨h.not_mem_erase, h.erase b⟩
    have hothers : (list.erase b).filter (fun x => decide (x ∉ rest)) = list.filter (fun x => decide (x ∉ b :: rest)) := by
      rw [h.erase_eq_filter, List.filter_filter]
      exact List.filter_congr fun x _ => Bool.eq_iff_iff.mpr (by simp [and_comm])
    rw [List.foldl_cons, ih hnodup, moveToFront]
    by_cases hb : b ∈ rest
    · rw [List.dedup_cons_of_mem hb, List.filter_cons_of_neg (by simpa using hb), hothers]
    · rw [List.dedup_cons_of_notMem hb, List.filter_cons_of_pos (by simpa using hb), hothers]
      simp

section

variable {list : List Byte} (h : list.Perm allSymbols)

include h

theorem mem_of_perm_allSymbols (b : Byte) : b ∈ list := h.mem_iff.mpr (mem_allSymbols b)

theorem nodup_of_perm_allSymbols : list.Nodup := h.nodup_iff.mpr allSymbols_nodup

theorem length_of_perm_allSymbols : list.length = 256 := h.length_eq.trans allSymbols_length

/-- The index that MTF.ENC emits fits a byte. -/
theorem toNat_ofNat_idxOf (b : Byte) : (BitVec.ofNat 8 (list.idxOf b)).toNat = list.idxOf b := by
  have hlt := List.idxOf_lt_length_of_mem (mem_of_perm_allSymbols h b)
  rw [length_of_perm_allSymbols h] at hlt
  exact (BitVec.toNat_ofNat _ 8).trans (Nat.mod_eq_of_lt hlt)

theorem getD_idxOf (b : Byte) : list.getD (list.idxOf b) 0#8 = b := by
  rw [List.getD_eq_getElem?_getD, List.getElem?_idxOf (mem_of_perm_allSymbols h b), Option.getD_some]

/-- Each index of MTF.DEC is that of an entry of the list (rule R127), and MTF.ENC finds the entry there. -/
theorem idxOf_getD (i : Byte) : list.idxOf (list.getD i.toNat 0#8) = i.toNat := by
  have hlt : i.toNat < list.length := (length_of_perm_allSymbols h).symm ▸ i.isLt
  rw [List.getD_eq_getElem _ _ hlt, (nodup_of_perm_allSymbols h).idxOf_getElem]

theorem moveToFront_perm_allSymbols (b : Byte) : (moveToFront list b).Perm allSymbols :=
  (List.perm_cons_erase (mem_of_perm_allSymbols h b)).symm.trans h

/-- One step of MTF.ENC (rule R122). -/
theorem mtfEncodeFrom_cons (b : Byte) (rest : List Byte) :
    mtfEncodeFrom list (b :: rest) =
      (BitVec.ofNat 8 (list.idxOf b) :: (mtfEncodeFrom (moveToFront list b) rest).1,
        (mtfEncodeFrom (moveToFront list b) rest).2) := by
  rw [← symbolListUpdate_idxOf (mem_of_perm_allSymbols h b)]
  rfl

/-- One step of MTF.DEC (rule R123): the entry that is emitted moves to the front. -/
theorem mtfDecodeFrom_cons (i : Byte) (rest : List Byte) :
    mtfDecodeFrom list (i :: rest) =
      (list.getD i.toNat 0#8 :: (mtfDecodeFrom (moveToFront list (list.getD i.toNat 0#8)) rest).1,
        (mtfDecodeFrom (moveToFront list (list.getD i.toNat 0#8)) rest).2) := by
  rw [← symbolListUpdate_idxOf (mem_of_perm_allSymbols h _), idxOf_getD h]
  rfl

/-- The list after MTF.ENC has read a sequence. -/
theorem mtfEncodeFrom_list (input : List Byte) : (mtfEncodeFrom list input).2 = input.foldl moveToFront list := by
  induction input generalizing list with
  | nil => rfl
  | cons b rest ih => rw [mtfEncodeFrom_cons h, List.foldl_cons, ← ih (moveToFront_perm_allSymbols h b)]

/-- What MTF.ENC emits for a byte is its index in the list that the bytes before it leave. -/
theorem mtfEncodeFrom_getElem? (before after : List Byte) (b : Byte) :
    (mtfEncodeFrom list (before ++ b :: after)).1[before.length]?.map BitVec.toNat =
      some ((before.foldl moveToFront list).idxOf b) := by
  induction before generalizing list with
  | nil => simp [mtfEncodeFrom_cons h, toNat_ofNat_idxOf h]
  | cons x before ih =>
    rw [List.cons_append, mtfEncodeFrom_cons h, List.length_cons, List.getElem?_cons_succ,
      ih (moveToFront_perm_allSymbols h x), List.foldl_cons]

end

/-- The recency list after a sequence (rule R120's seed and one front-move per byte). -/
def recencyList (input : List Byte) : List Byte := input.foldl moveToFront identityList

theorem recencyList_append_cons (before between : List Byte) (b : Byte) :
    recencyList (before ++ b :: between) = between.foldl moveToFront (moveToFront (recencyList before) b) :=
  List.foldl_append

/-- The bytes of the sequence come first, then the other symbols in ascending order. -/
theorem recencyList_eq (input : List Byte) :
    recencyList input = input.dedup.reverse ++ allSymbols.filter (fun x => decide (x ∉ input)) :=
  foldl_moveToFront allSymbols_nodup input

theorem recencyList_perm (input : List Byte) : (recencyList input).Perm allSymbols :=
  List.foldlRecOn (motive := fun l => l.Perm allSymbols) input moveToFront identityList_perm
    fun _ hl b _ => moveToFront_perm_allSymbols hl b

theorem mtfEncodeFrom_identityList (input : List Byte) : (mtfEncodeFrom identityList input).2 = recencyList input :=
  mtfEncodeFrom_list identityList_perm input

theorem mtfEncode_getElem? (before after : List Byte) (b : Byte) :
    (mtfEncode (before ++ b :: after))[before.length]?.map BitVec.toNat = some ((recencyList before).idxOf b) :=
  mtfEncodeFrom_getElem? identityList_perm before after b

end Sys2Proof
end

section
/-! PROOF. MTF.ENC and MTF.DEC undo each other, and their lists stay the same (rules R124, R125). -/

namespace Sys2Proof

open Sys2Proof.Machine

section

variable {list : List Byte} (h : list.Perm allSymbols)

include h

theorem mtfDecodeFrom_mtfEncodeFrom (input : List Byte) :
    mtfDecodeFrom list (mtfEncodeFrom list input).1 = (input, (mtfEncodeFrom list input).2) := by
  induction input generalizing list with
  | nil => rfl
  | cons b rest ih =>
    rw [mtfEncodeFrom_cons h, mtfDecodeFrom_cons h, toNat_ofNat_idxOf h, getD_idxOf h,
      ih (moveToFront_perm_allSymbols h b)]

theorem mtfEncodeFrom_mtfDecodeFrom (indices : List Byte) :
    mtfEncodeFrom list (mtfDecodeFrom list indices).1 = (indices, (mtfDecodeFrom list indices).2) := by
  induction indices generalizing list with
  | nil => rfl
  | cons i rest ih =>
    rw [mtfDecodeFrom_cons h, mtfEncodeFrom_cons h, idxOf_getD h, BitVec.ofNat_toNat, BitVec.setWidth_eq,
      ih (moveToFront_perm_allSymbols h _)]

end

theorem mtfDecode_mtfEncode (input : List Byte) : mtfDecode (mtfEncode input) = input :=
  congrArg Prod.fst (mtfDecodeFrom_mtfEncodeFrom identityList_perm input)

theorem mtfEncode_mtfDecode (indices : List Byte) : mtfEncode (mtfDecode indices) = indices :=
  congrArg Prod.fst (mtfEncodeFrom_mtfDecodeFrom identityList_perm indices)

/-- Settles O34: the decoder's output encodes to the decoder's input. -/
theorem mtfDecInvertsEncoding : Obligations.MtfDecInvertsEncoding :=
  fun s => ⟨mtfDecode s.w, _, execMtfDec_eq s, mtfDecode_length s.w, execMtfEnc_eq _, mtfEncode_mtfDecode s.w⟩

/-- Settles O35: each of the two functions undoes the other. -/
theorem mtfRoundTrip : Obligations.MtfRoundTrip :=
  fun s => ⟨⟨_, _, execMtfEnc_eq s, execMtfDec_eq _, mtfDecode_mtfEncode s.w, rfl⟩,
    ⟨_, _, execMtfDec_eq s, execMtfEnc_eq _, mtfEncode_mtfDecode s.w, rfl⟩⟩

/-- Settles O36: the decoder ends with the encoder's list, which is the recency list of the sequence. -/
theorem mtfListsStayMirrored : Obligations.MtfListsStayMirrored := by
  intro input
  constructor
  · rw [mtfEncode, mtfDecodeFrom_mtfEncodeFrom identityList_perm]
  · rw [mtfEncodeFrom_identityList]
    exact recencyList_perm input

/-- Settles O37: the empty sequence stays empty in both directions. -/
theorem mtfEmptyBufferSucceeds : Obligations.MtfEmptyBufferSucceeds := by
  intro s hw
  have henc : mtfEncode s.w = s.w := hw.symm ▸ rfl
  have hdec : mtfDecode s.w = s.w := hw.symm ▸ rfl
  exact ⟨(execMtfEnc_eq s).trans (by rw [henc]), (execMtfDec_eq s).trans (by rw [hdec])⟩

end Sys2Proof
end

section
/-! PROOF. What MTF.ENC emits, by the bytes seen before: the first and the later occurrences of a byte (rules R122, R128). -/

namespace Sys2Proof

open Sys2Proof.Machine

/-- The index of a byte in an ascending list is the number of smaller bytes in it. -/
theorem idxOf_eq_countP_of_ascending {list : List Byte} (h : list.Pairwise (fun a b => a.toNat < b.toNat)) {b : Byte}
    (hb : b ∈ list) : list.idxOf b = list.countP (fun x => decide (x.toNat < b.toNat)) := by
  induction list with
  | nil => cases hb
  | cons x rest ih =>
    obtain ⟨hx, hrest⟩ := List.pairwise_cons.mp h
    rcases List.mem_cons.mp hb with rfl | hb
    · have hnone : rest.countP (fun x => decide (x.toNat < b.toNat)) = 0 :=
        List.countP_eq_zero.mpr fun x hmem => by simpa using (hx x hmem).le
      rw [List.idxOf_cons_self, List.countP_cons_of_neg (by simp), hnone]
    · have hlt := hx b hb
      rw [List.idxOf_cons_ne _ (fun e => Nat.ne_of_lt hlt (congrArg BitVec.toNat e)), ih hrest hb,
        List.countP_cons_of_pos (by simpa using hlt)]

theorem idxOf_allSymbols (b : Byte) : allSymbols.idxOf b = b.toNat := by
  obtain ⟨hlt, hget⟩ := List.getElem?_eq_some_iff.mp (allSymbols_getElem? b.toNat b.isLt)
  rw [BitVec.ofNat_toNat, BitVec.setWidth_eq] at hget
  conv_lhs => rw [← hget]
  exact allSymbols_nodup.idxOf_getElem b.toNat hlt

theorem countP_lt_allSymbols (b : Byte) : allSymbols.countP (fun x => decide (x.toNat < b.toNat)) = b.toNat := by
  rw [← idxOf_eq_countP_of_ascending allSymbols_ascending (mem_allSymbols b), idxOf_allSymbols]

/-- The bytes of a list are those below `b` and those above it, where `b` is not among them. -/
theorem countP_lt_add_countP_gt {list : List Byte} {b : Byte} (hb : b ∉ list) :
    list.countP (fun x => decide (x.toNat < b.toNat)) + list.countP (fun x => decide (b.toNat < x.toNat)) =
      list.length := by
  rw [List.length_eq_countP_add_countP (fun x => decide (x.toNat < b.toNat))]
  refine congrArg _ (List.countP_congr fun x hx => ?_)
  have hne : x.toNat ≠ b.toNat := fun e => hb (BitVec.eq_of_toNat_eq e ▸ hx)
  simp only [decide_eq_true_eq]
  omega

/-- A new byte stands behind the bytes seen and the smaller ones not seen. Together these are all `b.toNat` smaller bytes and the
greater ones seen. -/
theorem idxOf_recencyList_of_notMem {before : List Byte} {b : Byte} (hb : b ∉ before) :
    (recencyList before).idxOf b = b.toNat + (before.dedup.filter (fun x => decide (b.toNat < x.toNat))).length := by
  have hseen : b ∉ before.dedup.reverse := by simpa using hb
  have hunseen : b ∈ allSymbols.filter (fun x => decide (x ∉ before)) := by simpa [mem_allSymbols] using hb
  have hsmaller := (recencyList_perm before).countP_eq (fun x => decide (x.toNat < b.toNat))
  have hsplit := countP_lt_add_countP_gt hseen
  rw [countP_lt_allSymbols, recencyList_eq, List.countP_append] at hsmaller
  rw [recencyList_eq, List.idxOf_append_of_notMem hseen,
    idxOf_eq_countP_of_ascending (allSymbols_ascending.filter _) hunseen, ← List.countP_eq_length_filter,
    ← List.countP_reverse (l := before.dedup)]
  omega

/-- A byte stands behind the bytes seen since its last occurrence. -/
theorem idxOf_recencyList_of_seen (before between : List Byte) {b : Byte} (hb : b ∉ between) :
    (recencyList (before ++ b :: between)).idxOf b = between.dedup.length := by
  have hnodup := nodup_of_perm_allSymbols (moveToFront_perm_allSymbols (recencyList_perm before) b)
  have hseen : b ∉ between.dedup.reverse := by simpa using hb
  rw [recencyList_append_cons, foldl_moveToFront hnodup, List.idxOf_append_of_notMem hseen, moveToFront,
    List.filter_cons_of_pos (by simpa using hb), List.idxOf_cons_self, List.length_reverse, Nat.add_zero]

/-- Settles O33: the number emitted is the index of the byte in the list that the bytes before it leave. -/
theorem mtfEncEmitsRecency : Obligations.MtfEncEmitsRecency := by
  intro s
  refine ⟨mtfEncode s.w, execMtfEnc_eq s, mtfEncode_length s.w, fun before after b hw hb => ?_,
    fun before between after b hw hb => ?_⟩
  · rw [hw, mtfEncode_getElem?, idxOf_recencyList_of_notMem hb]
  · have hsplit : s.w = (before ++ b :: between) ++ b :: after := by simp [hw]
    have hindex : before.length + 1 + between.length = (before ++ b :: between).length := by
      rw [List.length_append, List.length_cons]
      omega
    rw [hsplit, hindex, mtfEncode_getElem?, idxOf_recencyList_of_seen before between hb]

end Sys2Proof
end

-- The Huffman tree builder: O38 to O43.

section
/-! PROOF. The queue of the tree builder: a stable sort by weight makes it, and a merged entry keeps it sorted. -/

namespace Sys2Proof

open Sys2Proof.Machine

/-! ## The queue at its start -/

/-- The order of rule R138: by weight, and on equal weights by the place in the table, which is the leaf's slot. -/
def QueueLt (x y : QueueEntry) : Prop := x.weight < y.weight ∨ (x.weight = y.weight ∧ x.node.toNat < y.node.toNat)

theorem QueueLt.trans {x y z : QueueEntry} (hxy : QueueLt x y) (hyz : QueueLt y z) : QueueLt x z := by
  unfold QueueLt at *
  omega

theorem QueueLt.weight_le {x y : QueueEntry} (h : QueueLt x y) : x.weight ≤ y.weight := by
  unfold QueueLt at h
  omega

/-- The leaves are queued in the order of their slots, and the sort moves a later one before an earlier one only if its weight is
below. -/
theorem initialQueue_pairwise {table : List (Byte × Long)} (h : table.length ≤ 512) :
    (initialQueue table).Pairwise QueueLt := by
  refine stableSort_pairwise (r := QueueLt) (fun _ _ _ => QueueLt.trans) (List.pairwise_map.mpr ?_)
  refine (zipIdx_pairwise_position table).imp_of_mem fun {a b} ha hb hab => ?_
  have ha := List.snd_lt_of_mem_zipIdx ha
  have hb := List.snd_lt_of_mem_zipIdx hb
  have hslots : (BitVec.ofNat 9 a.2).toNat < (BitVec.ofNat 9 b.2).toNat := by
    simp only [BitVec.toNat_ofNat]
    omega
  simp only [weightLe, QueueLt, decide_eq_true_eq, decide_eq_false_iff_not]
  omega

theorem mem_initialQueue {table : List (Byte × Long)} {e : Byte × Long} {j : Nat} (h : table[j]? = some e) :
    ⟨e.2.toNat, BitVec.ofNat 9 j⟩ ∈ initialQueue table :=
  mem_stableSort.mpr (List.mem_map.mpr ⟨(e, j), List.mem_zipIdx_iff_getElem?.mpr h, rfl⟩)

/-- Settles O41: the queue is a rearrangement of the leaves' entries in the strict order of rule R138. -/
theorem queueStartsSortedByCount : Obligations.QueueStartsSortedByCount := by
  intro table hfit
  refine ⟨initialQueue_length table, fun j hj => ?_, initialQueue_pairwise (by omega)⟩
  have he := List.getElem?_eq_getElem hj
  exact ⟨_, he, mem_initialQueue he⟩

/-! ## A merged entry -/

/-- The weights of a queue do not descend. -/
abbrev SortedByWeight (queue : List QueueEntry) : Prop := queue.Pairwise (fun x y => x.weight ≤ y.weight)

theorem initialQueue_sorted {table : List (Byte × Long)} (h : table.length ≤ 512) :
    SortedByWeight (initialQueue table) :=
  (initialQueue_pairwise h).imp QueueLt.weight_le

theorem insertAfter_sorted (e : QueueEntry) {queue : List QueueEntry} (h : SortedByWeight queue) :
    SortedByWeight (insertAfter weightLe e queue) := by
  refine insertAfter_pairwise (r := fun x y : QueueEntry => x.weight ≤ y.weight) (fun _ _ _ => Nat.le_trans)
    (fun y _ hy => ?_) (fun y _ hy => ?_) h
  · exact of_decide_eq_true hy
  · exact Nat.le_of_not_le (of_decide_eq_false hy)

theorem queueWith_cons_of_le {e y : QueueEntry} (h : y.weight ≤ e.weight) (ys : List QueueEntry) :
    queueWith e (y :: ys) = y :: queueWith e ys := by
  simp [queueWith, h]

theorem queueWith_of_forall_gt {e : QueueEntry} {queue : List QueueEntry} (h : ∀ y ∈ queue, e.weight < y.weight) :
    queueWith e queue = e :: queue := by
  have hnone : queue.filter (fun y => decide (y.weight ≤ e.weight)) = [] :=
    List.filter_eq_nil_iff.mpr (by simpa using h)
  simp [queueWith, hnone]

/-- In a sorted queue the first entry above the new one ends those that are not: so their number is the new one's position. -/
theorem insertAfter_eq_queueWith (e : QueueEntry) {queue : List QueueEntry} (h : SortedByWeight queue) :
    insertAfter weightLe e queue = queueWith e queue := by
  induction queue with
  | nil => rfl
  | cons y ys ih =>
    obtain ⟨hy, hys⟩ := List.pairwise_cons.mp h
    by_cases hle : y.weight ≤ e.weight
    · rw [queueWith_cons_of_le hle, ← ih hys]
      simp [insertAfter, weightLe, hle]
    · have habove : ∀ z ∈ y :: ys, e.weight < z.weight :=
        List.forall_mem_cons.mpr ⟨by omega, fun z hz => (Nat.lt_of_not_le hle).trans_le (hy z hz)⟩
      rw [queueWith_of_forall_gt habove]
      simp [insertAfter, weightLe, hle]

/-- Settles O42: `insertAfter` finds the position and keeps the order. -/
theorem mergedEntryGoesAfterEquals : Obligations.MergedEntryGoesAfterEquals := by
  intro e q h
  have heq := insertAfter_eq_queueWith e h
  exact ⟨heq, heq ▸ insertAfter_sorted e h⟩

end Sys2Proof
end

section
/-! PROOF. HUF.BUILD: its checks, and what the merge loop makes of the frequency table. -/

namespace Sys2Proof

open Sys2Proof.Machine

/-! ## The merge loop -/

/-- On a sorted queue that is long enough the merge loop takes `k` merge steps of rule R139. -/
theorem mergeSteps_mergeLoop {k : Nat} {queue : List QueueEntry} (arena : List Node) (hs : SortedByWeight queue)
    (hk : k ≤ queue.length - 1) : MergeSteps k queue arena (mergeLoop k queue arena).1 (mergeLoop k queue arena).2 := by
  induction k generalizing queue arena with
  | zero => exact .done queue arena
  | succ n ih =>
    match queue with
    | [] => simp at hk
    | [_] => simp at hk
    | a :: b :: rest =>
      have hrest : SortedByWeight rest := hs.of_cons.of_cons
      refine .merge (insertAfter_eq_queueWith _ hrest ▸ ih _ (insertAfter_sorted _ hrest) ?_)
      rw [insertAfter_length]
      simpa using hk

theorem leafSymbols_append_internal (arena : List Node) (l r : NodeIx) :
    leafSymbols (arena ++ [.internal l r]) = leafSymbols arena := by
  simp [leafSymbols]

/-- A merge step allocates no leaf. -/
theorem leafSymbols_mergeLoop (k : Nat) (queue : List QueueEntry) (arena : List Node) :
    leafSymbols (mergeLoop k queue arena).2 = leafSymbols arena := by
  induction k generalizing queue arena with
  | zero => rfl
  | succ n ih =>
    match queue with
    | [] => rfl
    | [_] => rfl
    | a :: b :: rest => exact (ih _ _).trans (leafSymbols_append_internal arena a.node b.node)

theorem leafSymbols_buildTree (table : List (Byte × Long)) :
    leafSymbols (buildTree table).1 = table.map (fun e => e.1) :=
  (leafSymbols_mergeLoop _ _ _).trans (leafSymbols_leavesOf table)

/-- The loop of a build ends with one entry in the queue, the root. -/
theorem mergeLoop_eq_buildTree {table : List (Byte × Long)} (h : table ≠ []) :
    ∃ weight, mergeLoop (table.length - 1) (initialQueue table) (leavesOf table) =
      ([⟨weight, (buildTree table).2⟩], (buildTree table).1) := by
  have hone : (mergeLoop (table.length - 1) (initialQueue table) (leavesOf table)).1.length = 1 := by
    have := List.length_pos_iff.mpr h
    rw [mergeLoop_queue_length, initialQueue_length]
    omega
  obtain ⟨e, he⟩ := List.length_eq_one_iff.mp hone
  exact ⟨e.weight, Prod.ext (by simp [buildTree, he]) rfl⟩

/-- Rules R138 to R141: a build is `n - 1` merge steps that start at the sorted leaves and end at the root. -/
theorem mergeSteps_buildTree {table : List (Byte × Long)} (hne : table ≠ []) (hfit : table.length ≤ 512) :
    ∃ weight, MergeSteps (table.length - 1) (initialQueue table) (leavesOf table) [⟨weight, (buildTree table).2⟩]
      (buildTree table).1 := by
  obtain ⟨weight, heq⟩ := mergeLoop_eq_buildTree hne
  have hsteps := mergeSteps_mergeLoop (leavesOf table) (initialQueue_sorted hfit)
    (Nat.le_of_eq (congrArg (· - 1) (initialQueue_length table).symm))
  rw [heq] at hsteps
  exact ⟨weight, hsteps⟩

/-- The corner case of rule R142: the first entry of a queue of two is the one of the smaller count, or of the earlier symbol. -/
theorem buildTree_pair (a b : Byte) (ca cb : Long) :
    buildTree [(a, ca), (b, cb)] =
      ([.leaf a, .leaf b, if ca.toNat ≤ cb.toNat then .internal 0#9 1#9 else .internal 1#9 0#9], 2#9) := by
  by_cases h : ca.toNat ≤ cb.toNat
  · have hqueue : initialQueue [(a, ca), (b, cb)] = [⟨ca.toNat, 0#9⟩, ⟨cb.toNat, 1#9⟩] := by
      simp [initialQueue, stableSort, insertAfter, weightLe, h]
    simp [buildTree, hqueue, h, mergeLoop, insertAfter, leavesOf]
  · have hqueue : initialQueue [(a, ca), (b, cb)] = [⟨cb.toNat, 1#9⟩, ⟨ca.toNat, 0#9⟩] := by
      simp [initialQueue, stableSort, insertAfter, weightLe, h]
    simp [buildTree, hqueue, h, mergeLoop, insertAfter, leavesOf]

/-! ## The command -/

theorem exec_hufBuild_empty {s : State} (h : (countedSymbols s).length = 0) :
    exec .hufBuild s = .next { s with status := 1#8, cmd := none } :=
  if_pos (freqTable_length s ▸ h)

theorem exec_hufBuild_one {s : State} (h : (countedSymbols s).length = 1) :
    exec .hufBuild s = .next { s with status := 3#8, cmd := none } := by
  rw [← freqTable_length] at h
  exact (if_neg (by omega)).trans (if_pos h)

theorem exec_hufBuild_tooMany {s : State} (hn : 2 ≤ (countedSymbols s).length)
    (hfit : s.cfgAcap.toNat < 2 * (countedSymbols s).length - 1) :
    exec .hufBuild s = .next { s with status := 2#8, cmd := none } := by
  rw [← freqTable_length] at hn hfit
  exact (if_neg (by omega)).trans ((if_neg (by omega)).trans (if_pos hfit))

theorem exec_hufBuild_fits {s : State} (hn : 2 ≤ (countedSymbols s).length)
    (hfit : 2 * (countedSymbols s).length - 1 ≤ s.cfgAcap.toNat) :
    exec .hufBuild s = .next { s with
      arena := (buildTree s.freqTable).1, root := (buildTree s.freqTable).2
      treeValid := true, codeValid := false, code := emptyCode, status := 0#8, cmd := none } := by
  rw [← freqTable_length] at hn hfit
  exact (if_neg (by omega)).trans ((if_neg (by omega)).trans (if_neg (by omega)))

/-- A build that ends without an error has built the tree of the frequency table. -/
theorem hufBuild_success {s t : State} (h : exec .hufBuild s = .next t) (hok : t.status = 0#8) :
    t.arena = (buildTree s.freqTable).1 ∧ t.root = (buildTree s.freqTable).2 := by
  rcases execHufBuild_cases h with ⟨k, rfl⟩ | ⟨-, -, rfl⟩
  · exact absurd hok (errorCode_ne_zero k)
  · exact ⟨rfl, rfl⟩

/-- Settles O39: the tree and its leaves by the invariant of the merge loop, the merge steps by the order of the queue. -/
theorem hufBuildBuildsTree : Obligations.HufBuildBuildsTree := by
  intro s hn hfit
  have hexec := exec_hufBuild_fits hn hfit
  have hacap := s.cfgAcap.isLt
  have hlen := freqTable_length s
  have hne : s.freqTable ≠ [] := List.ne_nil_of_length_pos (by omega)
  have htree := buildTree_treeOver (table := s.freqTable) (by omega) (by omega) (freqTable_ascending s)
  have hleaves := leafSymbols_buildTree s.freqTable
  obtain ⟨weight, hsteps⟩ := mergeSteps_buildTree hne (by omega)
  have hstart : leavesOf s.freqTable = (countedSymbols s).map Node.leaf := by
    rw [countedSymbols_eq, List.map_map]
    rfl
  rw [hlen] at htree hsteps
  rw [← countedSymbols_eq] at hleaves
  rw [hstart] at hsteps
  exact ⟨_, _, weight, hexec, htree, hleaves, freqTable_eq s ▸ hsteps⟩

/-- Settles O40: a build from the table of the two symbols. -/
theorem hufBuildTwoSymbols : Obligations.HufBuildTwoSymbols := by
  intro s a b hab hfit
  have htable : s.freqTable = [(a, s.readCount a), (b, s.readCount b)] := by
    rw [freqTable_eq, hab]
    rfl
  have hlen : (countedSymbols s).length = 2 := congrArg List.length hab
  have hexec := exec_hufBuild_fits hlen.ge (by omega)
  rw [htable, buildTree_pair] at hexec
  exact ⟨_, hexec, rfl, rfl, rfl⟩

/-- Settles O38: the checks stand in the order of rule R136, and each raises its error before anything is written. -/
theorem hufBuildChecks : Obligations.HufBuildChecks :=
  fun _ => ⟨exec_hufBuild_empty, exec_hufBuild_one, exec_hufBuild_tooMany⟩

/-- Settles O43: what a build makes depends on the frequency table alone, and the table on `COUNT`. -/
theorem treeIsDeterminedByCounts : Obligations.TreeIsDeterminedByCounts := by
  intro s s' t t' hcount h h' hok hok'
  obtain ⟨harena, hroot⟩ := hufBuild_success h hok
  obtain ⟨harena', hroot'⟩ := hufBuild_success h' hok'
  have htable : s.freqTable = s'.freqTable := by rw [State.freqTable, State.freqTable, hcount]
  have heq : t.arena = t'.arena := by rw [harena, harena', htable]
  exact ⟨heq, by rw [hroot, hroot', htable], by rw [State.atop, State.atop, heq]⟩

end Sys2Proof
end

-- The Huffman code generator: O44, O45 and O46.

section
/-! PROOF. The tree of rule R40: a leaf for each symbol in the first slots, internal nodes above them, and from the root exactly one
way to every slot. That `c` is the child of slot `i` in the direction `b` is said as `follow arena i [b] = some c`. -/

namespace Sys2Proof

open Sys2Proof.Machine

/-! ## Slots, children and ways -/

theorem internalBelow_iff {arena : List Node} {i : Nat} :
    internalBelow arena i = true ↔ ∃ l r, arena[i]? = some (.internal l r) ∧ l.toNat < i ∧ r.toNat < i := by
  unfold internalBelow
  split <;> simp_all

@[simp] theorem leafSymbols_cons_leaf (sym : Byte) (arena : List Node) :
    leafSymbols (.leaf sym :: arena) = sym :: leafSymbols arena := rfl

@[simp] theorem leafSymbols_cons_internal (l r : NodeIx) (arena : List Node) :
    leafSymbols (.internal l r :: arena) = leafSymbols arena := rfl

theorem leafSymbols_append (a b : List Node) : leafSymbols (a ++ b) = leafSymbols a ++ leafSymbols b := by
  simp [leafSymbols]

theorem leafSymbols_length_le (arena : List Node) : (leafSymbols arena).length ≤ arena.length :=
  List.length_filterMap_le _ _

/-- An arena with as many leaf symbols as slots holds leaves only. -/
theorem eq_map_leaf_of_leafSymbols_length {arena : List Node} (h : (leafSymbols arena).length = arena.length) :
    arena = (leafSymbols arena).map .leaf := by
  induction arena with
  | nil => rfl
  | cons node rest ih =>
    cases node with
    | leaf sym => simpa using ih (by simpa using h)
    | internal l r =>
      have := leafSymbols_length_le rest
      rw [leafSymbols_cons_internal, List.length_cons] at h
      omega

theorem leafSymbols_eq_nil {arena : List Node} (h : ∀ node ∈ arena, ∃ l r, node = .internal l r) :
    leafSymbols arena = [] :=
  List.filterMap_eq_nil_iff.mpr fun node hnode => by
    obtain ⟨l, r, rfl⟩ := h node hnode
    rfl

theorem childRefs_eq_flatMap (arena : List Node) : childRefs arena = arena.flatMap (fun node => childRefs [node]) := by
  simp [childRefs]

theorem childRefs_internal (l r : NodeIx) : childRefs [.internal l r] = [l, r] := rfl

theorem follow_singleton {arena : List Node} {i c : NodeIx} {b : Bool} :
    follow arena i [b] = some c ↔ ∃ l r, readSlot arena i = some (.internal l r) ∧ (if b then r else l) = c := by
  simp only [follow]
  split <;> simp_all

/-- The first turn goes to a child, and the others go on from there. -/
theorem follow_cons {arena : List Node} {i j : NodeIx} {b : Bool} {rest : Bits} :
    follow arena i (b :: rest) = some j ↔ ∃ c, follow arena i [b] = some c ∧ follow arena c rest = some j := by
  rw [← List.singleton_append, follow_append, Option.bind_eq_some_iff]

theorem follow_concat {arena : List Node} {i j : NodeIx} {b : Bool} {turns : Bits} :
    follow arena i (turns ++ [b]) = some j ↔ ∃ p, follow arena i turns = some p ∧ follow arena p [b] = some j := by
  rw [follow_append, Option.bind_eq_some_iff]

theorem readSlot_of_follow_singleton {arena : List Node} {i c : NodeIx} {b : Bool} (h : follow arena i [b] = some c) :
    ∃ l r, readSlot arena i = some (.internal l r) ∧ c ∈ childRefs [.internal l r] := by
  obtain ⟨l, r, hi, rfl⟩ := follow_singleton.mp h
  exact ⟨l, r, hi, by cases b <;> simp [childRefs_internal]⟩

theorem mem_childRefs {arena : List Node} (hfit : arena.length < 512) {c : NodeIx} :
    c ∈ childRefs arena ↔ ∃ i b, follow arena i [b] = some c := by
  rw [childRefs_eq_flatMap, List.mem_flatMap]
  constructor
  · rintro ⟨node, hnode, hc⟩
    obtain ⟨k, hk, rfl⟩ := List.mem_iff_getElem.mp hnode
    have hslot : readSlot arena (BitVec.ofNat 9 k) = some arena[k] := by
      have : k % 512 = k := Nat.mod_eq_of_lt (by omega)
      simp [readSlot, this]
    cases hx : arena[k] with
    | leaf sym => simp [hx, childRefs] at hc
    | internal l r =>
      rw [hx] at hslot hc
      have hc : c = l ∨ c = r := by simpa [childRefs_internal] using hc
      rcases hc with rfl | rfl
      · exact ⟨_, false, follow_singleton.mpr ⟨_, _, hslot, rfl⟩⟩
      · exact ⟨_, true, follow_singleton.mpr ⟨_, _, hslot, rfl⟩⟩
  · rintro ⟨i, b, h⟩
    obtain ⟨l, r, hi, hc⟩ := readSlot_of_follow_singleton h
    exact ⟨_, List.mem_of_getElem? hi, hc⟩

/-- Where no slot is referred to twice, different slots have no child in common. -/
theorem childRefs_disjoint {arena : List Node} (hnd : (childRefs arena).Nodup) {i j : Nat} {x y : Node} (hij : i < j)
    (hi : arena[i]? = some x) (hj : arena[j]? = some y) : (childRefs [x]).Disjoint (childRefs [y]) := by
  rw [childRefs_eq_flatMap, List.nodup_flatMap] at hnd
  obtain ⟨_, rfl⟩ := List.getElem?_eq_some_iff.mp hi
  obtain ⟨_, rfl⟩ := List.getElem?_eq_some_iff.mp hj
  exact List.pairwise_iff_getElem.mp hnd.2 i j _ _ hij

/-- Where no slot is referred to twice, a slot is the child of one node in one direction. -/
theorem parent_unique {arena : List Node} (hnd : (childRefs arena).Nodup) {i j c : NodeIx} {b d : Bool}
    (hi : follow arena i [b] = some c) (hj : follow arena j [d] = some c) : i = j ∧ b = d := by
  obtain ⟨l, r, hsi, hci⟩ := readSlot_of_follow_singleton hi
  obtain ⟨l', r', hsj, hcj⟩ := readSlot_of_follow_singleton hj
  rcases Nat.lt_trichotomy i.toNat j.toNat with hlt | heq | hgt
  · exact absurd hcj (childRefs_disjoint hnd hlt hsi hsj hci)
  · obtain rfl := BitVec.eq_of_toNat_eq heq
    have hlr : l ≠ r := by
      rw [childRefs_eq_flatMap, List.nodup_flatMap] at hnd
      simpa [childRefs_internal] using hnd.1 _ (List.mem_of_getElem? hsi)
    simp only [follow, hsi, Option.some.injEq] at hi hj
    refine ⟨rfl, by_contra fun hbd => ?_⟩
    obtain rfl : d = !b := Bool.eq_not.mpr (Ne.symm hbd)
    cases b with
    | false => exact hlr (hi.trans hj.symm)
    | true => exact hlr (hj.trans hi.symm)
  · exact absurd hci (childRefs_disjoint hnd hgt hsj hsi hcj)

/-! ## The form of rule R40 -/

section

variable {n : Nat} {arena : List Node} {root : NodeIx} (h : TreeOver n arena root)

include h

theorem TreeOver.sizes : 2 ≤ n ∧ arena.length = 2 * n - 1 ∧ root.toNat = 2 * n - 2 := by
  obtain ⟨hn, hlen, -, -, -, hroot, -⟩ := h
  exact ⟨hn, hlen, hroot⟩

theorem TreeOver.count_childRefs {c : NodeIx} (hc : c.toNat < root.toNat) : (childRefs arena).count c = 1 := by
  obtain ⟨-, -, -, -, -, hroot, hcount⟩ := h
  rw [hroot] at hc
  simpa using hcount c.toNat hc

theorem TreeOver.internal_of_le {i : Nat} (hn : n ≤ i) (hi : i < arena.length) :
    ∃ l r, arena[i]? = some (.internal l r) ∧ l.toNat < i ∧ r.toNat < i := by
  obtain ⟨hn2, hlen, -, -, hint, -⟩ := h
  have := internalBelow_iff.mp (hint (i - n) (by omega))
  rwa [Nat.add_sub_cancel' hn] at this

/-- The leaves are in the first `n` slots. -/
theorem TreeOver.leafSymbols_take : leafSymbols (arena.take n) = leafSymbols arena := by
  have hdrop : leafSymbols (arena.drop n) = [] := leafSymbols_eq_nil fun node hnode => by
    obtain ⟨k, hk, rfl⟩ := List.mem_iff_getElem.mp hnode
    rw [List.length_drop] at hk
    obtain ⟨l, r, hslot, -⟩ := h.internal_of_le (Nat.le_add_right n k) (by omega)
    exact ⟨l, r, by simpa using (List.getElem?_eq_some_iff.mp hslot).2⟩
  conv_rhs => rw [← List.take_append_drop n arena, leafSymbols_append, hdrop, List.append_nil]

theorem TreeOver.leafSymbols_length : (leafSymbols arena).length = n := by
  have heq := h.leafSymbols_take
  obtain ⟨-, -, hleaves, -⟩ := h
  rw [← heq, hleaves]

theorem TreeOver.leafSymbols_nodup : (leafSymbols arena).Nodup := by
  have heq := h.leafSymbols_take
  obtain ⟨-, -, -, hasc, -⟩ := h
  exact heq ▸ hasc.imp fun hab e => Nat.ne_of_lt hab (congrArg BitVec.toNat e)

theorem TreeOver.take_eq_map_leaf : arena.take n = (leafSymbols arena).map .leaf := by
  obtain ⟨-, hlen, -⟩ := h.sizes
  rw [← h.leafSymbols_take]
  refine eq_map_leaf_of_leafSymbols_length ?_
  rw [h.leafSymbols_take, h.leafSymbols_length, List.length_take]
  omega

/-- Slot `i` is the leaf of the symbol number `i`. -/
theorem TreeOver.readSlot_leaf_iff {i : NodeIx} {sym : Byte} :
    readSlot arena i = some (.leaf sym) ↔ (leafSymbols arena)[i.toNat]? = some sym := by
  rcases Nat.lt_or_ge i.toNat n with hi | hi
  · rw [readSlot, ← List.getElem?_take_of_lt hi, h.take_eq_map_leaf]
    simp
  · rw [List.getElem?_eq_none (h.leafSymbols_length.trans_le hi)]
    refine iff_of_false (fun hleaf => ?_) nofun
    obtain ⟨l, r, hslot, -⟩ := h.internal_of_le hi (List.getElem?_eq_some_iff.mp hleaf).1
    cases hleaf.symm.trans hslot

/-- A symbol has one leaf. -/
theorem TreeOver.leaf_unique {i j : NodeIx} {sym : Byte} (hi : readSlot arena i = some (.leaf sym))
    (hj : readSlot arena j = some (.leaf sym)) : i = j := by
  rw [h.readSlot_leaf_iff] at hi hj
  have hlt := (List.getElem?_eq_some_iff.mp hi).1
  exact BitVec.eq_of_toNat_eq ((List.getElem?_inj hlt h.leafSymbols_nodup).mp (hi.trans hj.symm))

/-- An internal node stands in a slot from `n` up, and its children below it. -/
theorem TreeOver.internal_slot {i l r : NodeIx} (hi : readSlot arena i = some (.internal l r)) :
    n ≤ i.toNat ∧ i.toNat ≤ root.toNat ∧ l.toNat < i.toNat ∧ r.toNat < i.toNat := by
  have hlt : i.toNat < arena.length := (List.getElem?_eq_some_iff.mp hi).1
  have hn : n ≤ i.toNat := Nat.le_of_not_lt fun hlow => by
    rw [readSlot, ← List.getElem?_take_of_lt hlow, h.take_eq_map_leaf] at hi
    simp at hi
  obtain ⟨l', r', hslot, hl, hr⟩ := h.internal_of_le hn hlt
  cases hi.symm.trans hslot
  obtain ⟨-, hlen, hroot⟩ := h.sizes
  exact ⟨hn, by omega, hl, hr⟩

theorem TreeOver.root_internal : ∃ l r, readSlot arena root = some (.internal l r) := by
  obtain ⟨hn, hlen, hroot⟩ := h.sizes
  obtain ⟨l, r, hslot, -⟩ := h.internal_of_le (i := root.toNat) (by omega) (by omega)
  exact ⟨l, r, hslot⟩

theorem TreeOver.child_lt {i c : NodeIx} {b : Bool} (hc : follow arena i [b] = some c) :
    n ≤ i.toNat ∧ i.toNat ≤ root.toNat ∧ c.toNat < i.toNat := by
  obtain ⟨l, r, hi, rfl⟩ := follow_singleton.mp hc
  obtain ⟨hn, hroot, hl, hr⟩ := h.internal_slot hi
  exact ⟨hn, hroot, by cases b <;> assumption⟩

/-- Every slot below the root has a parent (rule R40). -/
theorem TreeOver.exists_parent (hfit : arena.length < 512) {c : NodeIx} (hc : c.toNat < root.toNat) :
    ∃ i b, follow arena i [b] = some c :=
  (mem_childRefs hfit).mp (List.count_pos_iff.mp (Nat.lt_of_lt_of_eq Nat.one_pos (h.count_childRefs hc).symm))

theorem TreeOver.childRefs_nodup (hfit : arena.length < 512) : (childRefs arena).Nodup := by
  refine List.nodup_iff_count_eq_one.mpr fun c hc => ?_
  obtain ⟨i, b, hc⟩ := (mem_childRefs hfit).mp hc
  obtain ⟨-, hi, hlt⟩ := h.child_lt hc
  exact h.count_childRefs (Nat.lt_of_lt_of_le hlt hi)

/-! ## The ways from the root -/

/-- The way from the root to a slot is unique: its last turn comes from the slot's only parent, and none leads back to the root. -/
theorem TreeOver.way_unique (hfit : arena.length < 512) {p q : Bits} {i : NodeIx} (hp : follow arena root p = some i)
    (hq : follow arena root q = some i) : p = q := by
  have hroot : ∀ {turns : Bits} {b : Bool}, follow arena root (turns ++ [b]) ≠ some root := fun hback => by
    obtain ⟨j, -, hj⟩ := follow_concat.mp hback
    obtain ⟨-, hle, hlt⟩ := h.child_lt hj
    omega
  induction p using List.reverseRecOn generalizing q i with
  | nil =>
    obtain rfl := Option.some.inj hp
    rcases q.eq_nil_or_concat' with rfl | ⟨q, b, rfl⟩
    · rfl
    · exact absurd hq hroot
  | append_singleton p b ih =>
    rcases q.eq_nil_or_concat' with rfl | ⟨q, d, rfl⟩
    · obtain rfl := Option.some.inj hq
      exact absurd hp hroot
    · obtain ⟨j, hpj, hj⟩ := follow_concat.mp hp
      obtain ⟨j', hqj, hj'⟩ := follow_concat.mp hq
      obtain ⟨rfl, rfl⟩ := parent_unique (h.childRefs_nodup hfit) hj hj'
      rw [ih hpj hqj]

/-- Every slot is reached: the root by no turn, and any other through its parent, which stands above it. -/
theorem TreeOver.exists_way (hfit : arena.length < 512) (i : NodeIx) (hi : i.toNat ≤ root.toNat) :
    ∃ turns, follow arena root turns = some i := by
  rcases Nat.lt_or_ge i.toNat root.toNat with hlt | hge
  · obtain ⟨j, b, hj⟩ := h.exists_parent hfit hlt
    obtain ⟨-, hle, hij⟩ := h.child_lt hj
    obtain ⟨turns, hturns⟩ := exists_way hfit j hle
    exact ⟨turns ++ [b], follow_concat.mpr ⟨j, hturns, hj⟩⟩
  · exact ⟨[], congrArg some (BitVec.eq_of_toNat_eq (Nat.le_antisymm hge hi))⟩
termination_by root.toNat - i.toNat

/-- Each turn goes down from an internal node, and these stand in the slots from `n` up (rule R163). -/
theorem TreeOver.way_length_le {turns : Bits} {i j : NodeIx} (hway : follow arena i turns = some j) :
    turns = [] ∨ n + turns.length ≤ i.toNat + 1 := by
  induction turns generalizing i with
  | nil => exact .inl rfl
  | cons b rest ih =>
    obtain ⟨c, hc, hrest⟩ := follow_cons.mp hway
    obtain ⟨hn, -, hlt⟩ := h.child_lt hc
    right
    rw [List.length_cons]
    rcases ih hrest with rfl | hle
    · simpa using hn
    · omega

end

end Sys2Proof
end

section
/-! PROOF. The visit of rule R161: its writes are the turns to the leaves, each once, and their lengths meet Kraft's equality. -/

namespace Sys2Proof

open Sys2Proof.Machine

/-! ## The turns to a leaf -/

theorem leadsToLeaf_of_leaf {arena : List Node} {i : NodeIx} {own sym : Byte} {turns : Bits}
    (h : readSlot arena i = some (.leaf own)) : LeadsToLeaf arena i turns sym ↔ turns = [] ∧ sym = own := by
  cases turns <;> simp [LeadsToLeaf, follow, h, eq_comm]

theorem leadsToLeaf_of_internal {arena : List Node} {i l r : NodeIx} {sym : Byte} {turns : Bits}
    (h : readSlot arena i = some (.internal l r)) :
    LeadsToLeaf arena i turns sym ↔
      (∃ rest, LeadsToLeaf arena l rest sym ∧ false :: rest = turns) ∨
      (∃ rest, LeadsToLeaf arena r rest sym ∧ true :: rest = turns) := by
  match turns with
  | [] => simp [LeadsToLeaf, follow, h]
  | false :: rest => simp [LeadsToLeaf, follow, h]
  | true :: rest => simp [LeadsToLeaf, follow, h]

/-- No turn leads on from a leaf, so a way that begins with the way to a leaf leads to that leaf (rule R165). -/
theorem LeadsToLeaf.eq_of_append {arena : List Node} {i : NodeIx} {turns more : Bits} {a b : Byte}
    (ha : LeadsToLeaf arena i turns a) (hb : LeadsToLeaf arena i (turns ++ more) b) : b = a := by
  obtain ⟨j, hj, hleaf⟩ := ha
  obtain ⟨k, hk, hleafb⟩ := hb
  rw [follow_append, hj, Option.bind_some] at hk
  exact ((leadsToLeaf_of_leaf hleaf).mp ⟨k, hk, hleafb⟩).2

/-! ## The visit -/

/-- `visit(i, path)` of rule R161 as a relation: it makes the writes `entries`. -/
inductive Visit (arena : List Node) : NodeIx → Bits → List (Byte × Bits) → Prop
  | leaf {i : NodeIx} {path : Bits} {sym : Byte} :
      readSlot arena i = some (.leaf sym) → Visit arena i path [(sym, path)]
  | internal {i l r : NodeIx} {path : Bits} {a b : List (Byte × Bits)} :
      readSlot arena i = some (.internal l r) → Visit arena l (path ++ [false]) a → Visit arena r (path ++ [true]) b →
      Visit arena i path (a ++ b)

theorem visit_of_visitTree {arena : List Node} {fuel : Nat} {i : NodeIx} {path : Bits} {entries : List (Byte × Bits)}
    (h : visitTree arena fuel i path = some entries) : Visit arena i path entries := by
  induction fuel generalizing i path entries with
  | zero => cases h
  | succ k ih =>
    simp only [visitTree] at h
    split at h
    · cases h
    · rename_i sym hslot
      exact Option.some.inj h ▸ .leaf hslot
    · rename_i l r hslot
      split at h
      · rename_i a b ha hb
        exact Option.some.inj h ▸ .internal hslot (ih ha) (ih hb)
      · cases h

/-- In a tree the children stand below their node, and so fuel above the index of a slot is enough for its visit (rule R163). -/
theorem TreeOver.exists_visitTree {n : Nat} {arena : List Node} {root : NodeIx} (h : TreeOver n arena root) {fuel : Nat}
    {i : NodeIx} (path : Bits) (hi : i.toNat < fuel) (hroot : i.toNat ≤ root.toNat) :
    ∃ entries, visitTree arena fuel i path = some entries := by
  induction fuel generalizing i path with
  | zero => omega
  | succ k ih =>
    obtain ⟨hn, hlen, hlast⟩ := h.sizes
    obtain ⟨node, hslot⟩ : ∃ node, readSlot arena i = some node := ⟨_, List.getElem?_eq_getElem (by omega)⟩
    cases node with
    | leaf sym => exact ⟨[(sym, path)], by simp only [visitTree, hslot]⟩
    | internal l r =>
      obtain ⟨-, -, hl, hr⟩ := h.internal_slot hslot
      obtain ⟨a, ha⟩ := ih (path ++ [false]) (i := l) (by omega) (by omega)
      obtain ⟨b, hb⟩ := ih (path ++ [true]) (i := r) (by omega) (by omega)
      exact ⟨a ++ b, by simp only [visitTree, hslot, ha, hb]⟩

section

variable {arena : List Node} {i : NodeIx} {path : Bits} {entries : List (Byte × Bits)} (h : Visit arena i path entries)

include h

/-- The visit writes the turns to each leaf, behind the path it starts with, and nothing else. -/
theorem Visit.mem_iff {sym : Byte} {code : Bits} :
    (sym, code) ∈ entries ↔ ∃ turns, LeadsToLeaf arena i turns sym ∧ path ++ turns = code := by
  induction h with
  | leaf hslot => simp [leadsToLeaf_of_leaf hslot, eq_comm]
  | internal hslot _ _ iha ihb =>
    simp only [List.mem_append, iha, ihb, leadsToLeaf_of_internal hslot]
    constructor
    · rintro (⟨turns, hturns, rfl⟩ | ⟨turns, hturns, rfl⟩)
      · exact ⟨_, .inl ⟨turns, hturns, rfl⟩, by simp⟩
      · exact ⟨_, .inr ⟨turns, hturns, rfl⟩, by simp⟩
    · rintro ⟨_, ⟨turns, hturns, rfl⟩ | ⟨turns, hturns, rfl⟩, rfl⟩
      · exact .inl ⟨turns, hturns, by simp⟩
      · exact .inr ⟨turns, hturns, by simp⟩

/-- No leaf is visited twice: the codes of the left subtree and those of the right differ after the path to their node. -/
theorem Visit.nodup : entries.Nodup := by
  induction h with
  | leaf => exact List.nodup_singleton _
  | internal _ hva hvb iha ihb =>
    refine iha.append ihb fun e hea heb => ?_
    obtain ⟨_, -, ha⟩ := hva.mem_iff.mp hea
    obtain ⟨_, -, hb⟩ := hvb.mem_iff.mp heb
    simpa using ha.trans hb.symm

/-- Kraft's equality: both children weigh half of their node, so the leaves together weigh what the path weighs. -/
theorem Visit.kraft {depth : Nat} (hdepth : ∀ e ∈ entries, e.2.length ≤ depth) :
    path.length ≤ depth ∧ (entries.map (fun e => 2 ^ (depth - e.2.length))).sum = 2 ^ (depth - path.length) := by
  induction h with
  | leaf => simpa using hdepth
  | internal _ _ _ iha ihb =>
    obtain ⟨hlen, hsuma⟩ := iha fun e he => hdepth e (List.mem_append_left _ he)
    obtain ⟨-, hsumb⟩ := ihb fun e he => hdepth e (List.mem_append_right _ he)
    simp only [List.length_append, List.length_singleton] at hlen hsuma hsumb
    refine ⟨by omega, ?_⟩
    rw [List.map_append, List.sum_append, hsuma, hsumb, ← Nat.two_mul, ← Nat.pow_succ']
    congr 1
    omega

end

/-! ## The writes of a visit -/

theorem writeCodes_concat (entries : List (Byte × Bits)) (e : Byte × Bits) :
    writeCodes (entries ++ [e]) = (writeCodes entries).set e.1.toNat e.2 e.1.isLt := by
  simp [writeCodes]

/-- Of each symbol the table holds a code that was written, or none if none was (rule R167). -/
theorem writeCodes_cases (entries : List (Byte × Bits)) (sym : Byte) :
    (sym, (writeCodes entries)[sym.toNat]'sym.isLt) ∈ entries ∨
    (writeCodes entries)[sym.toNat]'sym.isLt = [] ∧ ∀ code, (sym, code) ∉ entries := by
  induction entries using List.reverseRecOn with
  | nil => exact .inr ⟨emptyCode_getElem _ _, nofun⟩
  | append_singleton rest e ih =>
    obtain ⟨own, code⟩ := e
    simp only [writeCodes_concat]
    by_cases hown : own = sym
    · simp [hown]
    · have hne : own.toNat ≠ sym.toNat := fun e => hown (BitVec.eq_of_toNat_eq e)
      simpa [Vector.getElem_set_ne _ _ hne, Ne.symm hown] using ih

end Sys2Proof
end

section
/-! PROOF. HUF.GEN: the code table holds the turns to each leaf, and what follows for its codes. -/

namespace Sys2Proof

open Sys2Proof.Machine

/-! ## The code table of a tree -/

theorem exists_visit_of_codeTable {arena : List Node} {root : NodeIx} {code : Vector Bits 256}
    (h : codeTable arena root = some code) : ∃ entries, Visit arena root [] entries ∧ writeCodes entries = code := by
  obtain ⟨entries, hvisit, hcode⟩ := Option.map_eq_some_iff.mp h
  exact ⟨entries, visit_of_visitTree hvisit, hcode⟩

section

variable {n : Nat} {arena : List Node} {root : NodeIx} (h : TreeOver n arena root)

include h

theorem TreeOver.exists_codeTable : ∃ code, codeTable arena root = some code := by
  obtain ⟨hn, hlen, hroot⟩ := h.sizes
  obtain ⟨entries, hvisit⟩ := h.exists_visitTree (fuel := arena.length) [] (i := root) (by omega) le_rfl
  exact ⟨_, Option.map_eq_some_iff.mpr ⟨entries, hvisit, rfl⟩⟩

theorem TreeOver.turns_unique (hfit : arena.length < 512) {p q : Bits} {sym : Byte} (hp : LeadsToLeaf arena root p sym)
    (hq : LeadsToLeaf arena root q sym) : p = q := by
  obtain ⟨i, hpi, hi⟩ := hp
  obtain ⟨j, hqj, hj⟩ := hq
  exact h.way_unique hfit hpi (h.leaf_unique hi hj ▸ hqj)

/-- The depth bound of rule R163, and that the root is no leaf (rule R164). -/
theorem TreeOver.turns_length {turns : Bits} {sym : Byte} (hturns : LeadsToLeaf arena root turns sym) :
    1 ≤ turns.length ∧ turns.length ≤ n - 1 := by
  obtain ⟨-, -, hroot⟩ := h.sizes
  obtain ⟨l, r, hslot⟩ := h.root_internal
  obtain ⟨i, hway, hi⟩ := hturns
  have hne : turns ≠ [] := by
    rintro rfl
    obtain rfl := Option.some.inj hway
    cases hslot.symm.trans hi
  have hle := (h.way_length_le hway).resolve_left hne
  exact ⟨List.length_pos_iff.mpr hne, by omega⟩

/-- Every leaf is reached (rule R162). -/
theorem TreeOver.mem_leafSymbols_iff (hfit : arena.length < 512) {sym : Byte} :
    sym ∈ leafSymbols arena ↔ ∃ turns, LeadsToLeaf arena root turns sym := by
  constructor
  · intro hsym
    obtain ⟨k, hk⟩ := List.mem_iff_getElem?.mp hsym
    obtain ⟨hn, hlen, hroot⟩ := h.sizes
    have hkn := h.leafSymbols_length ▸ (List.getElem?_eq_some_iff.mp hk).1
    have hindex : (BitVec.ofNat 9 k).toNat = k := Nat.mod_eq_of_lt (by omega)
    obtain ⟨turns, hturns⟩ := h.exists_way hfit (BitVec.ofNat 9 k) (by omega)
    exact ⟨turns, _, hturns, h.readSlot_leaf_iff.mpr (by rwa [hindex])⟩
  · rintro ⟨turns, i, -, hi⟩
    exact List.mem_of_getElem? (h.readSlot_leaf_iff.mp hi)

/-- Rules R161 and R164: a code is the turns that lead to the symbol's leaf, and only the symbols of leaves have one. -/
theorem TreeOver.leadsToLeaf_iff (hfit : arena.length < 512) {code : Vector Bits 256}
    (hcode : codeTable arena root = some code) {turns : Bits} {sym : Byte} :
    LeadsToLeaf arena root turns sym ↔ turns ≠ [] ∧ code[sym.toNat]'sym.isLt = turns := by
  obtain ⟨entries, hvisit, rfl⟩ := exists_visit_of_codeTable hcode
  have hmem : ∀ p, (sym, p) ∈ entries ↔ LeadsToLeaf arena root p sym := fun p => by simp [hvisit.mem_iff]
  constructor
  · intro hturns
    refine ⟨List.length_pos_iff.mp (h.turns_length hturns).1, ?_⟩
    rcases writeCodes_cases entries sym with hin | ⟨-, hnone⟩
    · exact h.turns_unique hfit ((hmem _).mp hin) hturns
    · exact absurd ((hmem turns).mpr hturns) (hnone turns)
  · rintro ⟨hne, rfl⟩
    rcases writeCodes_cases entries sym with hin | ⟨hempty, -⟩
    · exact (hmem _).mp hin
    · exact absurd hempty hne

end

/-! ## The command -/

/-- Settles O45: the command tests `TREE_VALID` first. -/
theorem hufGenNeedsTree : Obligations.HufGenNeedsTree := fun _ h => if_pos h

theorem exec_hufGen_tree {s : State} {code : Vector Bits 256} (h : s.treeValid = true)
    (hcode : codeTable s.arena s.root = some code) :
    exec .hufGen s = .next { s with code := code, codeValid := true, status := 0#8, cmd := none } := by
  refine (if_neg (by simp [h])).trans ?_
  rw [hcode]
  rfl

/-- Settles O44: the code table holds the turns to each leaf, and in a tree every leaf is reached. -/
theorem hufGenWritesPathsToLeaves : Obligations.HufGenWritesPathsToLeaves := by
  intro s hs hv
  obtain ⟨n, htree⟩ := hs.treePresent hv
  have hfit := hs.arena_lt
  obtain ⟨-, hlen, -⟩ := htree.sizes
  obtain ⟨code, hcode⟩ := htree.exists_codeTable
  refine ⟨code, _, exec_hufGen_tree hv hcode, rfl, fun sym turns hturns => ?_,
    fun sym => (htree.mem_leafSymbols_iff hfit).mp, fun sym hsym => ?_⟩
  · obtain ⟨hpos, hle⟩ := htree.turns_length hturns
    exact ⟨((htree.leadsToLeaf_iff hfit hcode).mp hturns).2, hpos, by omega⟩
  · by_contra hne
    exact hsym ((htree.mem_leafSymbols_iff hfit).mpr ⟨_, (htree.leadsToLeaf_iff hfit hcode).mpr ⟨hne, rfl⟩⟩)

/-! ## The codes while `CODE_VALID` is 1 -/

theorem mem_codedSymbols {s : State} {sym : Byte} : sym ∈ codedSymbols s ↔ s.readCode sym ≠ [] := by
  simp [codedSymbols, mem_allSymbols]

section

variable {s : State} (hs : Inv s) (hc : s.codeValid = true)

include hs hc

theorem Inv.treeOver_of_codeValid : ∃ n, TreeOver n s.arena s.root := by
  refine hs.treePresent (Bool.not_eq_false _ ▸ fun hv => ?_)
  obtain ⟨-, -, hnone⟩ := hs.treeAbsent hv
  exact absurd hc (by simp [hnone])

theorem Inv.leadsToLeaf_iff {turns : Bits} {sym : Byte} :
    LeadsToLeaf s.arena s.root turns sym ↔ turns ≠ [] ∧ s.readCode sym = turns := by
  obtain ⟨n, htree⟩ := hs.treeOver_of_codeValid hc
  exact htree.leadsToLeaf_iff hs.arena_lt (hs.codePresent hc)

theorem Inv.leadsToLeaf_readCode {sym : Byte} (h : s.readCode sym ≠ []) :
    LeadsToLeaf s.arena s.root (s.readCode sym) sym :=
  (hs.leadsToLeaf_iff hc).mpr ⟨h, rfl⟩

theorem Inv.readCode_length_le (sym : Byte) : (s.readCode sym).length ≤ 255 := by
  obtain ⟨n, htree⟩ := hs.treeOver_of_codeValid hc
  obtain ⟨-, hlen, -⟩ := htree.sizes
  have hfit := hs.arena_lt
  by_cases h : s.readCode sym = []
  · simp [h]
  · have := (htree.turns_length (hs.leadsToLeaf_readCode hc h)).2
    omega

/-- A leaf is not on the way to another leaf (rule R165). -/
theorem Inv.eq_of_readCode_isPrefix {a b : Byte} (ha : s.readCode a ≠ []) (h : s.readCode a <+: s.readCode b) : a = b := by
  obtain ⟨more, hmore⟩ := h
  have hb : s.readCode b ≠ [] := hmore ▸ List.append_ne_nil_of_left_ne_nil ha _
  have hlead := hs.leadsToLeaf_readCode hc hb
  rw [← hmore] at hlead
  exact ((hs.leadsToLeaf_readCode hc ha).eq_of_append hlead).symm

/-- The coded symbols with their codes are the writes of a visit, each once. -/
theorem Inv.codedSymbols_perm_visit : ∃ entries, Visit s.arena s.root [] entries ∧
    ((codedSymbols s).map (fun sym => (sym, s.readCode sym))).Perm entries := by
  obtain ⟨entries, hvisit, -⟩ := exists_visit_of_codeTable (hs.codePresent hc)
  have hnodup : ((codedSymbols s).map (fun sym => (sym, s.readCode sym))).Nodup :=
    (allSymbols_nodup.filter _).map fun _ _ e => congrArg Prod.fst e
  refine ⟨entries, hvisit, (List.perm_ext_iff_of_nodup hnodup hvisit.nodup).mpr fun ⟨sym, code⟩ => ?_⟩
  rw [hvisit.mem_iff, List.mem_map]
  simp only [mem_codedSymbols, List.nil_append, exists_eq_right, hs.leadsToLeaf_iff hc, Prod.mk.injEq]
  constructor
  · rintro ⟨_, hne, rfl, rfl⟩
    exact ⟨hne, rfl⟩
  · rintro ⟨hne, rfl⟩
    exact ⟨sym, hne, rfl, rfl⟩

end

/-- Settles O46: no code begins with another because no turn leads on from a leaf; Kraft's equality is that of the visit. -/
theorem codeIsPrefixFreeAndComplete : Obligations.CodeIsPrefixFreeAndComplete := by
  intro s hs hc
  refine ⟨fun a b hab ha h => hab (hs.eq_of_readCode_isPrefix hc ha h), ?_⟩
  obtain ⟨entries, hvisit, hperm⟩ := hs.codedSymbols_perm_visit hc
  have hdepth : ∀ e ∈ entries, e.2.length ≤ 255 := fun e he => by
    obtain ⟨sym, -, rfl⟩ := List.mem_map.mp (hperm.mem_iff.mpr he)
    exact hs.readCode_length_le hc sym
  calc ((codedSymbols s).map (fun sym => 2 ^ (255 - (s.readCode sym).length))).sum
      = (entries.map (fun e => 2 ^ (255 - e.2.length))).sum := by
        rw [← (hperm.map _).sum_eq, List.map_map]
        rfl
    _ = 2 ^ 255 := (hvisit.kraft hdepth).2

end Sys2Proof
end

-- The bit codec: O47 to O55.

section
/-! PROOF. Bits and bytes: bit 7 of a byte comes first, in packing and in unpacking. -/

namespace Sys2Proof

open Sys2Proof.Machine

theorem byteOfBits_getLsbD (bits : Bits) {i : Nat} (h : i < 8) : (byteOfBits bits).getLsbD (7 - i) = bits.getD i false := by
  have hlen : ((bits ++ List.replicate 8 false).take 8).length = 8 := by simp
  have hbit : i < ((bits ++ List.replicate 8 false).take 8).length := hlen.symm ▸ h
  have hvalue : (byteOfBits bits).toNat = natOfBits ((bits ++ List.replicate 8 false).take 8) :=
    Nat.mod_eq_of_lt (Nat.lt_of_lt_of_eq (natOfBits_lt _) (congrArg (2 ^ ·) hlen))
  calc (byteOfBits bits).getLsbD (7 - i)
      = ((bits ++ List.replicate 8 false).take 8)[i] := by
        rw [BitVec.getLsbD, hvalue, ← testBit_natOfBits hbit, hlen]
    _ = bits.getD i false := by
        rw [List.getElem_take, List.getElem_append]
        split
        case isTrue hin => simp [hin]
        case isFalse hend => rw [List.getElem_replicate, List.getD_eq_default _ _ (Nat.le_of_not_lt hend)]

theorem packBytes_getElem? {m j : Nat} (bits : Bits) (h : j < m) :
    (packBytes m bits)[j]? = some (byteOfBits (bits.drop (8 * j))) := by
  induction m generalizing bits j with
  | zero => omega
  | succ m ih =>
    cases j with
    | zero => rfl
    | succ j =>
      rw [packBytes, List.getElem?_cons_succ, ih _ (Nat.lt_of_succ_lt_succ h), List.drop_drop, Nat.mul_succ, Nat.add_comm]

/-- Rules R174 and R175: the bits in order, and 0 beyond their end. -/
theorem packBytes_bit {m j i : Nat} (bits : Bits) (hj : j < m) (hi : i < 8) :
    ((packBytes m bits)[j]?).map (fun b => b.getLsbD (7 - i)) = some (bits.getD (8 * j + i) false) := by
  rw [packBytes_getElem? bits hj, Option.map_some, byteOfBits_getLsbD _ hi]
  simp [List.getD_eq_getElem?_getD]

theorem bitsOfByte_getElem? (b : Byte) {i : Nat} (h : i < 8) : (bitsOfByte b)[i]? = some (b.getLsbD (7 - i)) := by
  have hrange : bitsOfByte b = (List.range 8).map (fun i => b.getLsbD (7 - i)) := rfl
  simp [hrange, h]

theorem unpackBits_length (bytes : List Byte) : (unpackBits bytes).length = 8 * bytes.length := by
  induction bytes with
  | nil => rfl
  | cons b rest ih =>
    rw [unpackBits_cons, List.length_append, bitsOfByte_length, ih, List.length_cons]
    omega

theorem unpackBits_getElem? (bytes : List Byte) (j : Nat) {i : Nat} (hi : i < 8) :
    (unpackBits bytes)[8 * j + i]? = (bytes[j]?).map (fun b => b.getLsbD (7 - i)) := by
  induction bytes generalizing j with
  | nil => rfl
  | cons b rest ih =>
    rw [unpackBits_cons]
    cases j with
    | zero =>
      rw [Nat.mul_zero, Nat.zero_add, List.getElem?_append_left hi, bitsOfByte_getElem? b hi]
      rfl
    | succ j =>
      have hindex : 8 * (j + 1) + i = (bitsOfByte b).length + (8 * j + i) := by
        rw [bitsOfByte_length]
        omega
      rw [hindex, List.getElem?_append_right (Nat.le_add_right _ _), Nat.add_sub_cancel_left, ih]
      rfl

/-- Bytes enough for a bit sequence unpack to the sequence and a padding. -/
theorem isPrefix_unpackBits_packBytes {m : Nat} {bits : Bits} (h : bits.length ≤ 8 * m) :
    bits <+: unpackBits (packBytes m bits) := by
  refine List.prefix_iff_getElem?.mpr fun k hk => ?_
  have hoffset : k % 8 < 8 := Nat.mod_lt k (by omega)
  have hbit := (unpackBits_getElem? (packBytes m bits) (k / 8) hoffset).trans (packBytes_bit bits (by omega) hoffset)
  rw [Nat.div_add_mod] at hbit
  simpa [hk] using hbit

/-- Settles O50: byte by byte. -/
theorem unpackedBitsAreMsbFirst : Obligations.UnpackedBitsAreMsbFirst :=
  fun bytes => ⟨unpackBits_length bytes, fun j _ _ hi => unpackBits_getElem? bytes j hi⟩

end Sys2Proof
end

section
/-! PROOF. BIT.PACK: its checks, and what it writes. -/

namespace Sys2Proof

open Sys2Proof.Machine

section

variable {s : State}

theorem any_uncoded_iff :
    s.w.any (fun b => decide ((s.readCode b).length = 0)) = true ↔ ∃ b ∈ s.w, s.readCode b = [] := by
  simp

theorem exec_bitPack_notReady (h : s.codeValid = false) :
    exec .bitPack s = .next { s with status := 7#8, cmd := none } := if_pos h

variable (hv : s.codeValid = true)

include hv

theorem exec_bitPack_uncoded (h : ∃ b ∈ s.w, s.readCode b = []) :
    exec .bitPack s = .next { s with status := 8#8, cmd := none } :=
  (if_neg (by simp [hv])).trans (if_pos (any_uncoded_iff.mpr h))

variable (hw : ∀ b ∈ s.w, s.readCode b ≠ [])

include hw

theorem exec_bitPack_coded : exec .bitPack s =
    if s.cfgWcap.toNat < ((s.w.flatMap s.readCode).length + 7) / 8 then raise .capacityExceeded s
    else .next { s with
      w := packBytes (((s.w.flatMap s.readCode).length + 7) / 8) (s.w.flatMap s.readCode)
      dlen := BitVec.ofNat 64 s.w.length, status := 0#8, cmd := none } := by
  have hcoded : ¬ s.w.any (fun b => decide ((s.readCode b).length = 0)) = true :=
    mt any_uncoded_iff.mp fun ⟨b, hb, hnone⟩ => hw b hb hnone
  exact (if_neg (by simp [hv])).trans (if_neg hcoded)

theorem exec_bitPack_tooLong (h : s.cfgWcap.toNat < ((s.w.flatMap s.readCode).length + 7) / 8) :
    exec .bitPack s = .next { s with status := 9#8, cmd := none } :=
  (exec_bitPack_coded hv hw).trans (if_pos h)

theorem exec_bitPack_fits (h : ((s.w.flatMap s.readCode).length + 7) / 8 ≤ s.cfgWcap.toNat) :
    exec .bitPack s = .next { s with
      w := packBytes (((s.w.flatMap s.readCode).length + 7) / 8) (s.w.flatMap s.readCode)
      dlen := BitVec.ofNat 64 s.w.length, status := 0#8, cmd := none } :=
  (exec_bitPack_coded hv hw).trans (if_neg (Nat.not_lt.mpr h))

end

/-- Settles O48: the checks stand in this order. -/
theorem bitPackErrorsInOrder : Obligations.BitPackErrorsInOrder :=
  fun _ => ⟨exec_bitPack_notReady, exec_bitPack_uncoded, exec_bitPack_tooLong⟩

/-- Settles O47: each bit of the packed bytes is a bit of the codes or padding. -/
theorem bitPackPacksCodes : Obligations.BitPackPacksCodes := by
  intro s hv hw hfit
  refine ⟨_, exec_bitPack_fits hv hw hfit, packBytes_length _ _, fun j i hj hi => ?_⟩
  rw [packBytes_length] at hj
  exact packBytes_bit _ hj hi

/-- Settles O49: each code has 1 to 255 bits. -/
theorem packedSizeIsBounded : Obligations.PackedSizeIsBounded := by
  intro s hs hv hw hfit
  have hlower : s.w.length ≤ (s.w.flatMap s.readCode).length := by
    simpa [List.length_flatMap] using List.length_le_sum_of_one_le (s.w.map fun b => (s.readCode b).length)
      (List.forall_mem_map.mpr fun b hb => List.length_pos_iff.mpr (hw b hb))
  have hupper : (s.w.flatMap s.readCode).length ≤ 255 * s.w.length := by
    simpa [List.length_flatMap, Nat.mul_comm] using List.sum_le_card_nsmul
      (s.w.map fun b => (s.readCode b).length) 255 (List.forall_mem_map.mpr fun b _ => hs.readCode_length_le hv b)
  refine ⟨hlower, hupper, _, exec_bitPack_fits hv hw hfit, ?_⟩
  simp only [packBytes_length]
  omega

end Sys2Proof
end

section
/-! PROOF. The walk of BIT.UNPACK along the turns to internal nodes and to leaves. -/

namespace Sys2Proof

open Sys2Proof.Machine

section

variable {arena : List Node} {root cur i l r : NodeIx} {b : Bool} {turns : Bits} {sym : Byte}

@[simp] theorem unpackWalk_zero (bits : Bits) : unpackWalk arena root bits cur 0 = .done [] := by
  cases bits <;> rfl

theorem unpackWalk_turn_to_leaf (rest : Bits) (n : Nat) (hturn : follow arena cur [b] = some i)
    (hi : readSlot arena i = some (.leaf sym)) :
    unpackWalk arena root (b :: rest) cur (n + 1) = (unpackWalk arena root rest root n).emit sym := by
  obtain ⟨l, r, hcur, rfl⟩ := follow_singleton.mp hturn
  simp only [unpackWalk, hcur, hi]

theorem unpackWalk_turn_to_internal (rest : Bits) (n : Nat) (hturn : follow arena cur [b] = some i)
    (hi : readSlot arena i = some (.internal l r)) :
    unpackWalk arena root (b :: rest) cur (n + 1) = unpackWalk arena root rest i (n + 1) := by
  obtain ⟨_, _, hcur, rfl⟩ := follow_singleton.mp hturn
  simp only [unpackWalk, hcur, hi]

/-- On its way to an internal node the walk emits nothing: the nodes before it are internal too. -/
theorem unpackWalk_turns_to_internal (rest : Bits) (n : Nat) (hway : follow arena cur turns = some i)
    (hi : readSlot arena i = some (.internal l r)) :
    unpackWalk arena root (turns ++ rest) cur (n + 1) = unpackWalk arena root rest i (n + 1) := by
  induction turns using List.reverseRecOn generalizing i l r rest with
  | nil =>
    obtain rfl := Option.some.inj hway
    rfl
  | append_singleton turns b ih =>
    obtain ⟨p, hp, hturn⟩ := follow_concat.mp hway
    obtain ⟨_, _, hslot, -⟩ := follow_singleton.mp hturn
    rw [List.append_assoc, List.singleton_append, ih _ hp hslot, unpackWalk_turn_to_internal rest n hturn hi]

/-- Rule R183: at a leaf the walk emits its symbol and goes back to the root. -/
theorem unpackWalk_turns_to_leaf (rest : Bits) (n : Nat) (hne : turns ≠ []) (h : LeadsToLeaf arena cur turns sym) :
    unpackWalk arena root (turns ++ rest) cur (n + 1) = (unpackWalk arena root rest root n).emit sym := by
  obtain ⟨i, hway, hi⟩ := h
  obtain ⟨turns, b, rfl⟩ := turns.eq_nil_or_concat'.resolve_left hne
  obtain ⟨p, hp, hturn⟩ := follow_concat.mp hway
  obtain ⟨_, _, hslot, -⟩ := follow_singleton.mp hturn
  rw [List.append_assoc, List.singleton_append, unpackWalk_turns_to_internal _ n hp hslot,
    unpackWalk_turn_to_leaf rest n hturn hi]

@[simp] theorem foldr_emit_done (out more : List Byte) :
    out.foldr WalkEnd.emit (.done more) = .done (out ++ more) := by
  induction out with
  | nil => rfl
  | cons sym out ih => rw [List.foldr_cons, ih]; rfl

@[simp] theorem foldr_emit_failed (out : List Byte) (k : ErrorKind) :
    out.foldr WalkEnd.emit (.failed k) = .failed k := by
  induction out with
  | nil => rfl
  | cons sym out ih => rw [List.foldr_cons, ih]; rfl

/-- The walk emits the symbols whose codes come first, and then goes on from the root. -/
theorem TreeOver.unpackWalk_codes {n : Nat} (htree : TreeOver n arena root) {out : List Byte} {code : Byte → Bits}
    (h : ∀ b ∈ out, LeadsToLeaf arena root (code b) b) (rest : Bits) (need : Nat) :
    unpackWalk arena root (out.flatMap code ++ rest) root (out.length + need) =
      out.foldr WalkEnd.emit (unpackWalk arena root rest root need) := by
  induction out with
  | nil => simp
  | cons sym out ih =>
    obtain ⟨hsym, hout⟩ := List.forall_mem_cons.mp h
    have hne : code sym ≠ [] := List.length_pos_iff.mp (htree.turns_length hsym).1
    rw [List.flatMap_cons, List.append_assoc, List.length_cons, Nat.add_right_comm,
      unpackWalk_turns_to_leaf _ _ hne hsym, ih hout, List.foldr_cons]

/-- Rule R185: the bits end at the root or inside a code. -/
theorem TreeOver.unpackWalk_runs_out {n : Nat} (htree : TreeOver n arena root) (hfit : arena.length < 512) (need : Nat)
    (h : LeadsToInternal arena root turns) :
    unpackWalk arena root turns root (need + 1) =
      .failed (if turns = [] then .truncatedContainer else .corruptStream) := by
  obtain ⟨i, l, r, hway, hi⟩ := h
  have hroot : i = root ↔ turns = [] := by
    constructor
    · rintro rfl
      exact htree.way_unique hfit hway rfl
    · rintro rfl
      exact (Option.some.inj hway).symm
  have hwalk := unpackWalk_turns_to_internal (root := root) [] need hway hi
  rw [List.append_nil] at hwalk
  simp only [hwalk, unpackWalk, hroot]

/-- A walk that ends well does not read on (rules R184, R186). -/
theorem unpackWalk_append {bits : Bits} {need : Nat} {out : List Byte}
    (h : unpackWalk arena root bits cur need = .done out) (more : Bits) :
    unpackWalk arena root (bits ++ more) cur need = .done out := by
  induction bits generalizing cur need out with
  | nil =>
    cases need with
    | zero => simpa using h
    | succ n => cases h
  | cons b rest ih =>
    cases need with
    | zero => simpa using h
    | succ n =>
      rw [List.cons_append]
      simp only [unpackWalk] at h ⊢
      split at h
      · split at h
        · obtain ⟨o, ho, rfl⟩ := emit_done h
          rw [ih ho]
          rfl
        · exact ih h
        · exact ih h
      · cases h
      · cases h

end

end Sys2Proof
end

section
/-! PROOF. BIT.UNPACK: its checks, and how it ends. -/

namespace Sys2Proof

open Sys2Proof.Machine

section

variable {s : State}

theorem exec_bitUnpack_notReady (h : s.treeValid = false) :
    exec .bitUnpack s = .next { s with status := 7#8, cmd := none } := if_pos h

variable (hv : s.treeValid = true)

include hv

theorem exec_bitUnpack_tooLong (h : s.cfgWcap.toNat < s.dlen.toNat) :
    exec .bitUnpack s = .next { s with status := 9#8, cmd := none } :=
  (if_neg (by simp [hv])).trans (if_pos h)

variable (hfit : s.dlen.toNat ≤ s.cfgWcap.toNat)

include hfit

theorem exec_bitUnpack_done {out : List Byte}
    (h : unpackWalk s.arena s.root (unpackBits s.w) s.root s.dlen.toNat = .done out) :
    exec .bitUnpack s = .next { s with w := out, status := 0#8, cmd := none } := by
  refine (if_neg (by simp [hv])).trans ((if_neg (Nat.not_lt.mpr hfit)).trans ?_)
  rw [h]
  rfl

theorem exec_bitUnpack_failed {k : ErrorKind}
    (h : unpackWalk s.arena s.root (unpackBits s.w) s.root s.dlen.toNat = .failed k) :
    exec .bitUnpack s = .next { s with status := errorCode k, cmd := none } := by
  refine (if_neg (by simp [hv])).trans ((if_neg (Nat.not_lt.mpr hfit)).trans ?_)
  rw [h]
  rfl

end

/-- Settles O51: the checks stand in this order. -/
theorem bitUnpackPreconditions : Obligations.BitUnpackPreconditions :=
  fun _ => ⟨exec_bitUnpack_notReady, exec_bitUnpack_tooLong⟩

/-- Settles O52: the walk emits the symbols of the leading codes, and then it has as many as it needs. -/
theorem bitUnpackDecodesLeadingCodes : Obligations.BitUnpackDecodesLeadingCodes := by
  intro s out turns trailing hs hv hfit hlen hout hbits
  obtain ⟨n, htree⟩ := hs.treePresent hv
  have hwalk := htree.unpackWalk_codes hout trailing 0
  rw [unpackWalk_zero, foldr_emit_done, List.append_nil, Nat.add_zero, hlen, ← hbits] at hwalk
  exact exec_bitUnpack_done hv hfit hwalk

/-- Settles O53: the walk emits the symbols of the whole codes, and the bits then end on the way from the root. -/
theorem bitUnpackRunsOutOfBits : Obligations.BitUnpackRunsOutOfBits := by
  intro s out turns partialCode hs hv hfit hlen hout hpartial hbits
  obtain ⟨n, htree⟩ := hs.treePresent hv
  obtain ⟨need, hneed⟩ := Nat.exists_eq_add_of_lt hlen
  have hwalk := htree.unpackWalk_codes hout partialCode (need + 1)
  rw [htree.unpackWalk_runs_out hs.arena_lt need hpartial, foldr_emit_failed, ← Nat.add_assoc, ← hneed, ← hbits] at hwalk
  rw [exec_bitUnpack_failed hv hfit hwalk, apply_ite errorCode]
  rfl

/-- Settles O54: the walk that ended well ends in the same way when bits follow. -/
theorem trailingPayloadIsIgnored : Obligations.TrailingPayloadIsIgnored := by
  intro s t extra h hok
  rcases execBitUnpack_cases h with ⟨k, rfl⟩ | ⟨out, hv, hfit, hwalk, rfl⟩
  · exact absurd hok (errorCode_ne_zero k)
  · refine exec_bitUnpack_done (s := { s with w := s.w ++ extra }) hv hfit ?_
    exact unpackBits_append s.w extra ▸ unpackWalk_append hwalk (unpackBits extra)

theorem Inv.treeValid_of_codeValid {s : State} (hs : Inv s) (hc : s.codeValid = true) : s.treeValid = true := by
  by_contra hv
  obtain ⟨-, -, hnone⟩ := hs.treeAbsent (Bool.not_eq_true _ ▸ hv)
  exact absurd hc (by simp [hnone])

/-- Settles O55: the packed bytes begin with the codes, and the codes are the turns to the leaves. -/
theorem packUnpackRoundTrip : Obligations.PackUnpackRoundTrip := by
  intro s hs hc hw hfit
  have hpack := exec_bitPack_fits hc hw hfit
  have hdlen := length_toNat hs.wFits
  obtain ⟨padding, hbits⟩ := isPrefix_unpackBits_packBytes (bits := s.w.flatMap s.readCode)
    (m := ((s.w.flatMap s.readCode).length + 7) / 8) (by omega)
  have hunpack := bitUnpackDecodesLeadingCodes _ s.w s.readCode padding (hs.exec hpack)
    (hs.treeValid_of_codeValid hc) (hdlen.trans_le hs.wFits) hdlen.symm
    (fun b hb => hs.leadsToLeaf_readCode hc (hw b hb)) hbits.symm
  exact ⟨_, _, hpack, rfl, hdlen, hunpack, rfl, rfl⟩

end Sys2Proof
end

-- The system and the host: O6, O10 to O14 and O16.

section
/-! PROOF. The command sequencer: how an accepted word runs, and what waits while it does (rules R192, R193). -/

namespace Sys2Proof

open Sys2Proof.Machine

theorem Instr.wellFormed (i : Instr) : i.WellFormed = true := by
  cases i <;> rfl

/-- A command is one word long (rule R80). -/
theorem decodeWord_of_decode_singleton {w : Byte} {i : Instr} (h : decode [w] = .ok (i, [])) : decodeWord w = .ok i := by
  simp only [decode] at h
  split at h
  · cases h
    assumption
  · cases h

/-- Settles O6: `step_command` completes the word, and `respond` adds the response to a next state and keeps a stop. -/
theorem stepRunsDecodedCommand : Obligations.StepRunsDecodedCommand := by
  intro s word i hc hn hd
  have hstep : step s = respond (exec i s) := by
    rw [step_command hn hc, runWord_command s (decodeWord_of_decode_singleton hd)]
  refine ⟨i.wellFormed, fun t h => ?_, fun f h => ?_, fun r h => ?_⟩
  all_goals
    rw [hstep, h]
    rfl

/-- A word that runs to completion leaves what waits, and the block idle. -/
theorem runWord_pending_cmd {w : Byte} {s t : State} (h : runWord w s = .next t) :
    t.pending = s.pending ∧ t.cmd = none := by
  rcases runWord_cases h with ⟨i, -, he⟩ | rfl
  · obtain ⟨-, -, -, -, -, -, -, -, hpending, -, hcmd⟩ := commandsWriteOnlyWhatTheirRulesList i s t he
    exact ⟨hpending, hcmd⟩
  · exact ⟨rfl, rfl⟩

/-- Settles O10: of the cases of `step_cases`, a busy block without a reset can only complete its command. -/
theorem actionsAreHeldWhileBusy : Obligations.ActionsAreHeldWhileBusy := by
  intro s t hb hn h
  have hbusy : s.cmd ≠ none := Option.isSome_iff_ne_none.mp hb
  rcases step_cases h with ⟨rest, hp, -⟩ | ⟨word, u, -, -, hu, rfl⟩ | ⟨-, hc, -⟩ | ⟨a, rest, -, -, hc, -⟩
  · exact absurd hp (hn rest)
  · obtain ⟨hpending, hcmd⟩ := runWord_pending_cmd hu
    exact ⟨hpending, by simp [State.busy, hcmd]⟩
  · exact absurd hc hbusy
  · exact absurd hc hbusy

end Sys2Proof
end

section
/-! PROOF. The host port: what an idle block does with `issue`, with a `put` and with a `get` (rules R192 to R204). -/

namespace Sys2Proof

open Sys2Proof.Machine

theorem StepTakes.step_eq {s t : State} {a : HostAction} {rest : List HostAction} (h : StepTakes s a t)
    (hp : s.pending = a :: rest) : step s = .next { t with pending := rest } := by
  have hs := h rest
  rw [← hp] at hs
  exact hs

section

variable {s : State} {a : HostAction} (h : s.cmd = none)

include h

theorem stepTakes_acceptAction (ha : a ≠ .hardwareReset) (hr : inRange a s = true) : StepTakes s a (acceptAction a s) :=
  performAction_inRange hr ▸ stepTakes_performAction h ha

/-- An action out of range is refused without effect (rules R63, R204). -/
theorem answers_refused (hr : inRange a s = false) : Answers s a .refused := by
  have ha : a ≠ .hardwareReset := by
    rintro rfl
    cases hr
  have hstep := stepTakes_performAction h ha
  rw [performAction_outOfRange hr] at hstep
  exact hstep

end

/-! ## `issue` and the puts -/

/-- Settles O11: every command word is in range of the port. -/
theorem idleBlockAcceptsIssue : Obligations.IdleBlockAcceptsIssue := by
  intro s word rest hc hp
  exact ⟨_, (stepTakes_acceptAction (a := .issue word) hc (by simp) rfl).step_eq hp, rfl, rfl⟩

/-- Settles O12: the length of the list decides whether it is in range. -/
theorem putWFitsOrIsRefused : Obligations.PutWFitsOrIsRefused := by
  intro s bytes rest hc hp
  by_cases hfit : bytes.length ≤ s.cfgWcap.toNat
  · rw [if_pos hfit]
    exact (stepTakes_acceptAction (a := .putW bytes) hc (by simp) (decide_eq_true hfit)).step_eq hp
  · rw [if_neg hfit]
    exact (answers_refused (a := .putW bytes) hc (decide_eq_false hfit)).step_eq hp

/-- Settles O13: a 64-bit number is in range and is written as it is, and a greater one is refused. -/
theorem putsWriteTheirRegister : Obligations.PutsWriteTheirRegister := by
  intro s sym hc
  constructor
  · intro v
    have hr : decide (v.toNat < 2 ^ 64) = true := decide_eq_true v.isLt
    have hv : BitVec.ofNat 64 v.toNat = v := by simp
    have hstart := stepTakes_acceptAction (a := .putStart v.toNat) hc (by simp) hr
    have hdlen := stepTakes_acceptAction (a := .putDlen v.toNat) hc (by simp) hr
    have hcount := stepTakes_acceptAction (a := .putCount sym v.toNat) hc (by simp) hr
    simp only [acceptAction, hv] at hstart hdlen hcount
    exact ⟨hstart, hdlen, _, hcount, readCount_writeCount_same s sym v,
      fun other hne => readCount_writeCount_other s v hne, rfl⟩
  · intro v hv
    have hr : decide (v < 2 ^ 64) = false := decide_eq_false (Nat.not_lt.mpr hv)
    exact ⟨answers_refused hc hr, answers_refused hc hr, answers_refused hc hr⟩

/-! ## The gets -/

/-- A `get` that the port accepts only answers (rules R71, R193). -/
theorem acceptAction_get {a : HostAction} (s : State) (ha : isGet a = true) : ∃ r, acceptAction a s = s.reply r := by
  cases a with
  | issue | putW | putCount | putStart | putDlen | hardwareReset => cases ha
  | _ => exact ⟨_, rfl⟩

section

variable {s : State} {a : HostAction} {r : Reply} (h : s.cmd = none) (ha : isGet a = true)

include h ha

theorem answers_of_acceptAction (hr : inRange a s = true) (heq : acceptAction a s = s.reply r) : Answers s a r := by
  have hne : a ≠ .hardwareReset := by
    rintro rfl
    cases ha
  have hstep := stepTakes_acceptAction h hne hr
  rw [heq] at hstep
  exact hstep

/-- Every `get` is answered, if only with a refusal. -/
theorem exists_answers : ∃ r, Answers s a r := by
  cases hr : inRange a s with
  | false => exact ⟨_, answers_refused h hr⟩
  | true =>
    obtain ⟨r, heq⟩ := acceptAction_get s ha
    exact ⟨r, answers_of_acceptAction h ha hr heq⟩

end

section

variable {s : State} (h : s.cmd = none)

include h

theorem answers_getWByte {i : Nat} {b : Byte} (hb : s.w[i]? = some b) : Answers s (.getWByte i) (.byte b) := by
  obtain ⟨hi, rfl⟩ := List.getElem?_eq_some_iff.mp hb
  refine answers_of_acceptAction h rfl (decide_eq_true hi) ?_
  simp only [acceptAction, List.getD_eq_getElem _ _ hi]

theorem answers_getCode (sym : Byte) :
    Answers s (.getCode sym) (.code (codeEntry (s.readCode sym)).1 (codeEntry (s.readCode sym)).2) :=
  answers_of_acceptAction h rfl rfl rfl

end

theorem Inv.readCode_eq_nil {s : State} (hs : Inv s) (hc : s.codeValid = false) (sym : Byte) : s.readCode sym = [] := by
  simp [State.readCode, hs.codeAbsent hc]

/-- Settles O14: each answer is what `acceptAction` replies; of these gets only `get_W_byte` can be out of range. -/
theorem getsChangeNothing : Obligations.GetsChangeNothing := by
  intro s h
  have hanswer {a r} := answers_of_acceptAction (s := s) (a := a) (r := r) h
  refine ⟨hanswer rfl rfl rfl, hanswer rfl rfl rfl, fun i b => answers_getWByte h,
    fun i hi => answers_refused h (decide_eq_false (Nat.not_lt.mpr hi)), fun sym => hanswer rfl rfl rfl,
    hanswer rfl rfl rfl, hanswer rfl rfl rfl, hanswer rfl rfl rfl, hanswer rfl rfl rfl, hanswer rfl rfl rfl,
    answers_getCode h, fun hs hc sym => ?_, hanswer rfl rfl rfl, hanswer rfl rfl rfl, fun a => exists_answers h⟩
  have hcode := answers_getCode h sym
  rw [hs.readCode_eq_nil hc] at hcode
  exact hcode

/-- Settles O16: a slot at or above `ATOP` holds no node, and its record is 0. -/
theorem getNodeReadsSlotOrIsRefused : Obligations.GetNodeReadsSlotOrIsRefused := by
  intro s i h
  by_cases hi : s.cfgAcap.toNat ≤ i
  · rw [if_pos hi]
    exact answers_refused h (decide_eq_false (Nat.not_lt.mpr hi))
  · rw [if_neg hi]
    have hnode : Answers s (.getNode i) (.node (nodeRecord s.arena[i]?)) :=
      answers_of_acceptAction h rfl (decide_eq_true (Nat.lt_of_not_le hi)) rfl
    split
    · rename_i hempty
      rw [List.getElem?_eq_none hempty] at hnode
      exact hnode
    · exact hnode

end Sys2Proof
end

-- The host-side procedures: O57 to O60.

section
/-! PROOF. The Frequency Analyzer: the occurring symbols in ascending order, each with its number of occurrences (rules R210 to R212). -/

namespace Sys2Proof

open Sys2Proof.Machine

section

variable {symbols : List Byte}

/-- The symbols that occur in a sequence, in ascending order. -/
def occurringSymbols (symbols : List Byte) : List Byte := allSymbols.filter (fun s => decide (s ∈ symbols))

theorem mem_occurringSymbols {s : Byte} : s ∈ occurringSymbols symbols ↔ s ∈ symbols := by
  simp [occurringSymbols, mem_allSymbols]

theorem occurringSymbols_perm_dedup : (occurringSymbols symbols).Perm symbols.dedup :=
  (List.perm_ext_iff_of_nodup (allSymbols_nodup.filter _) symbols.nodup_dedup).mpr fun _ =>
    mem_occurringSymbols.trans List.mem_dedup.symm

/-- The numbers of occurrences add up to the length (rule R211). -/
theorem sum_count_occurringSymbols : ((occurringSymbols symbols).map (fun s => symbols.count s)).sum = symbols.length :=
  (occurringSymbols_perm_dedup.map _).sum_eq.trans (List.sum_map_count_dedup_eq_length symbols)

theorem analyze_nonempty (h : symbols ≠ []) :
    analyze symbols = .ok ((occurringSymbols symbols).map (fun s => (s, symbols.count s))) := by
  have hoccurs : (fun e : Byte × Nat => decide (e.2 ≠ 0)) ∘ (fun s => (s, symbols.count s)) =
      fun s => decide (s ∈ symbols) := by
    funext s
    simp [List.count_eq_zero]
  rw [analyze, if_neg (mt List.length_eq_zero_iff.mp h), List.filter_map, hoccurs, occurringSymbols]

end

/-- Settles O57: the table lists the occurring symbols, which are the sequence without repetitions, each with its count. -/
theorem analyzerCountsOccurrences : Obligations.AnalyzerCountsOccurrences := by
  refine ⟨rfl, fun symbols hne => ⟨_, analyze_nonempty hne, fun s c => ?_, ?_, ?_, ?_⟩⟩
  · rw [List.mem_map]
    constructor
    · rintro ⟨s, hs, ⟨⟩⟩
      exact ⟨mem_occurringSymbols.mp hs, rfl⟩
    · rintro ⟨hs, rfl⟩
      exact ⟨s, mem_occurringSymbols.mpr hs, rfl⟩
  · exact List.pairwise_map.mpr (allSymbols_ascending.filter _)
  · exact List.forall_mem_map.mpr fun s hs => List.count_pos_iff.mpr (mem_occurringSymbols.mp hs)
  · rw [List.map_map]
    exact sum_count_occurringSymbols

end Sys2Proof
end

section
/-! PROOF. INSTALL: the 256 counts of a table, what writing them leaves in `COUNT`, and the two commands that follow (rules R97,
R212, R213). -/

namespace Sys2Proof

open Sys2Proof.Machine

/-! ## The counts of a table -/

/-- The count that INSTALL sends for a symbol: 0 for one that is not in the table (rule R212). -/
def tableCount (table : List (Byte × Nat)) (sym : Byte) : Nat :=
  ((table.find? (fun e => decide (e.1 = sym))).map (fun e => e.2)).getD 0

theorem allCounts_eq (table : List (Byte × Nat)) : allCounts table = allSymbols.map (fun sym => (sym, tableCount table sym)) :=
  rfl

section

variable {table : List (Byte × Nat)}

theorem tableCount_of_notMem {sym : Byte} (h : sym ∉ table.map (fun e => e.1)) : tableCount table sym = 0 := by
  have hnone : table.find? (fun e => decide (e.1 = sym)) = none :=
    List.find?_eq_none.mpr fun e he heq => h (List.mem_map.mpr ⟨e, he, of_decide_eq_true heq⟩)
  rw [tableCount, hnone]
  rfl

theorem tableCount_lt (h : ∀ e ∈ table, e.2 < 2 ^ 64) (sym : Byte) : tableCount table sym < 2 ^ 64 := by
  rw [tableCount]
  cases hx : table.find? (fun e => decide (e.1 = sym)) with
  | none => decide
  | some x => exact h x (List.mem_of_find?_eq_some hx)

variable (hasc : table.Pairwise (fun a b => a.1.toNat < b.1.toNat))

include hasc

theorem tableSymbols_nodup : (table.map (fun e => e.1)).Nodup :=
  List.pairwise_map.mpr (hasc.imp fun h heq => Nat.ne_of_lt h (congrArg BitVec.toNat heq))

/-- A table has one entry for a symbol, so that the first one found is it. -/
theorem tableCount_of_mem {e : Byte × Nat} (he : e ∈ table) : tableCount table e.1 = e.2 := by
  obtain ⟨x, hx⟩ := Option.isSome_iff_exists.mp
    (List.find?_isSome (p := fun x => decide (x.1 = e.1)).mpr ⟨e, he, decide_eq_true rfl⟩)
  obtain rfl := List.inj_on_of_nodup_map (tableSymbols_nodup hasc) (List.mem_of_find?_eq_some hx) he
    (of_decide_eq_true (List.find?_some hx :))
  rw [tableCount, hx]
  rfl

theorem mem_allCounts {e : Byte × Nat} (he : e ∈ table) : e ∈ allCounts table :=
  List.mem_map.mpr ⟨e.1, mem_allSymbols e.1, Prod.ext rfl (tableCount_of_mem hasc he)⟩

theorem tableCount_ne_zero_iff (h : ∀ e ∈ table, 1 ≤ e.2) {sym : Byte} :
    tableCount table sym ≠ 0 ↔ sym ∈ table.map (fun e => e.1) := by
  refine ⟨fun hne => by_contra fun hnot => hne (tableCount_of_notMem hnot), fun hsym => ?_⟩
  obtain ⟨e, he, rfl⟩ := List.mem_map.mp hsym
  rw [tableCount_of_mem hasc he]
  exact Nat.one_le_iff_ne_zero.mp (h e he)

end

/-! ## Writing them -/

theorem mem_countedSymbols {s : State} {sym : Byte} : sym ∈ countedSymbols s ↔ s.readCount sym ≠ 0#64 := by
  simp [countedSymbols, mem_allSymbols]

/-- `COUNT` written entry by entry, as the puts of INSTALL do. -/
def writeCounts (entries : List (Byte × Nat)) (s : State) : State :=
  entries.foldl (fun t e => t.writeCount e.1 (BitVec.ofNat 64 e.2)) s

theorem writeCounts_cfgAcap (entries : List (Byte × Nat)) (s : State) : (writeCounts entries s).cfgAcap = s.cfgAcap :=
  List.foldlRecOn (motive := fun t : State => t.cfgAcap = s.cfgAcap) entries _ rfl fun _ ht _ _ => ht

theorem readCount_writeCounts_map (count : Byte → Nat) (syms : List Byte) (s : State) (sym : Byte) :
    (writeCounts (syms.map fun x => (x, count x)) s).readCount sym =
      if sym ∈ syms then BitVec.ofNat 64 (count sym) else s.readCount sym := by
  induction syms generalizing s with
  | nil => rfl
  | cons x syms ih =>
    have hstep : writeCounts ((x :: syms).map fun x => (x, count x)) s =
        writeCounts (syms.map fun x => (x, count x)) (s.writeCount x (BitVec.ofNat 64 (count x))) := rfl
    rw [hstep, ih]
    by_cases hx : sym = x
    · subst hx
      simp [readCount_writeCount_same]
    · simp [readCount_writeCount_other s _ hx, hx]

/-- Every count has been written, whatever `COUNT` held before. -/
theorem readCount_writeCounts_allCounts (table : List (Byte × Nat)) (s : State) (sym : Byte) :
    (writeCounts (allCounts table) s).readCount sym = BitVec.ofNat 64 (tableCount table sym) := by
  rw [allCounts_eq, readCount_writeCounts_map, if_pos (mem_allSymbols sym)]

section

variable {table : List (Byte × Nat)} (hasc : table.Pairwise (fun a b => a.1.toNat < b.1.toNat))
  (hrange : ∀ e ∈ table, 1 ≤ e.2 ∧ e.2 < 2 ^ 64)

include hrange

theorem toNat_readCount_writeCounts_allCounts (s : State) (sym : Byte) :
    ((writeCounts (allCounts table) s).readCount sym).toNat = tableCount table sym := by
  rw [readCount_writeCounts_allCounts, BitVec.toNat_ofNat,
    Nat.mod_eq_of_lt (tableCount_lt (fun e he => (hrange e he).2) sym)]

include hasc

/-- The symbols that HUF.BUILD counts are those of the table. -/
theorem countedSymbols_writeCounts_perm (s : State) :
    (countedSymbols (writeCounts (allCounts table) s)).Perm (table.map (fun e => e.1)) := by
  refine (List.perm_ext_iff_of_nodup (allSymbols_nodup.filter _) (tableSymbols_nodup hasc)).mpr fun sym => ?_
  rw [← tableCount_ne_zero_iff hasc fun e he => (hrange e he).1, ← toNat_readCount_writeCounts_allCounts hrange s]
  exact mem_countedSymbols.trans (not_congr BitVec.toNat_inj.symm)

end

/-! ## The two commands -/

/-- HUF.BUILD over at least two symbols that fit, and then HUF.GEN of the tree it built. -/
theorem exec_hufBuild_hufGen {s : State} (hn : 2 ≤ (countedSymbols s).length)
    (hfit : 2 * (countedSymbols s).length - 1 ≤ s.cfgAcap.toNat) :
    ∃ t u, exec .hufBuild s = .next t ∧ t.status = 0#8 ∧ exec .hufGen t = .next u ∧ u.status = 0#8 ∧
      u.treeValid = true ∧ u.codeValid = true ∧ u.count = s.count := by
  have hbuild := exec_hufBuild_fits hn hfit
  have hacap := s.cfgAcap.isLt
  rw [← freqTable_length] at hn hfit
  have htree := buildTree_treeOver hn (by omega) (freqTable_ascending s)
  obtain ⟨code, hcode⟩ := htree.exists_codeTable
  exact ⟨_, _, hbuild, rfl, exec_hufGen_tree rfl hcode, rfl, rfl, rfl, rfl⟩

theorem install_inRange {table : List (Byte × Nat)} {s t u : State} (hrange : ∀ e ∈ table, e.2 < 2 ^ 64)
    (hbuild : exec .hufBuild (writeCounts (allCounts table) s) = .next t) (ht : t.status = 0#8)
    (hgen : exec .hufGen t = .next u) (hu : u.status = 0#8) : install table s = .done u () := by
  have hall : ∀ e ∈ allCounts table, e.2 < 2 ^ 64 := List.forall_mem_map.mpr fun sym _ => tableCount_lt hrange sym
  rw [install, putCounts_inRange _ _ hall]
  exact (hostIssue_success hbuild ht).trans (hostIssue_success hgen hu)

/-- Settles O58: the counts written are those of the table, so that a tree is built over its symbols and its codes generated; a
count out of range is among the 256 sent. -/
theorem installMakesReady : Obligations.InstallMakesReady := by
  intro s table hasc
  constructor
  · intro hrange hn hfit
    have hlen : (countedSymbols (writeCounts (allCounts table) s)).length = table.length :=
      (countedSymbols_writeCounts_perm hasc hrange s).length_eq.trans (List.length_map _)
    obtain ⟨t, u, hbuild, ht, hgen, hu, htree, hcode, hcount⟩ := exec_hufBuild_hufGen
      (s := writeCounts (allCounts table) s) (hlen.symm ▸ hn) (by rwa [hlen, writeCounts_cfgAcap])
    have hread : ∀ sym, u.readCount sym = (writeCounts (allCounts table) s).readCount sym := fun sym => by
      rw [State.readCount, hcount, State.readCount]
    refine ⟨u, install_inRange (fun e he => (hrange e he).2) hbuild ht hgen hu, htree, hcode, fun e he => ?_,
      fun sym hsym => ?_⟩
    · rw [hread, toNat_readCount_writeCounts_allCounts hrange, tableCount_of_mem hasc he]
    · rw [hread, readCount_writeCounts_allCounts, tableCount_of_notMem hsym]
  · rintro ⟨e, he, hge⟩
    exact putCounts_outOfRange _ s ⟨e, mem_allCounts hasc he, hge⟩

end Sys2Proof
end

section
/-! PROOF. The procedures `compress` and `decompress`, and that the second undoes the first (rules R214, R215, R219, R220). -/

namespace Sys2Proof

open Sys2Proof.Machine

/-! ## `compress` -/

theorem hostIssue_mtfEnc {α : Type} (s : State) (next : State → ProcEnd α) :
    hostIssue .mtfEnc s next = next { s with w := mtfEncode s.w, status := 0#8, cmd := none } :=
  hostIssue_success (execMtfEnc_eq s) rfl

theorem hostIssue_mtfDec {α : Type} (s : State) (next : State → ProcEnd α) :
    hostIssue .mtfDec s next = next { s with w := mtfDecode s.w, status := 0#8, cmd := none } :=
  hostIssue_success (execMtfDec_eq s) rfl

theorem hostPut_putW {α : Type} {s : State} {bytes : List Byte} (next : State → ProcEnd α)
    (h : bytes.length ≤ s.cfgWcap.toNat) : hostPut (.putW bytes) s next = next { s with w := bytes } :=
  hostPut_accepted (decide_eq_true h)

/-- Settles O59: BWT.FWD of the empty buffer fails, which ends the procedure. -/
theorem compressOfNothingFails : Obligations.CompressOfNothingFails := by
  intro s
  rw [compress, hostPut_putW _ (Nat.zero_le _)]
  exact hostIssue_failure (exec_bwtFwd_empty rfl) (errorCode_ne_zero .emptyInput)

@[simp] theorem recoded_length (bytes : List Byte) : (recoded bytes).length = bytes.length := by
  rw [recoded, mtfEncode_length, permutedBytes_length]

/-- The container of a byte sequence under a code table (rules R88, R214). -/
def containerFor (code : Byte → Bits) (bytes : List Byte) : Container where
  decodedLength := BitVec.ofNat 64 (recoded bytes).length
  bwtStartIndex := BitVec.ofNat 64 (startIndex (suffixSort bytes))
  payload := packBytes ((((recoded bytes).flatMap code).length + 7) / 8) ((recoded bytes).flatMap code)

/-- Rule R214, when no command fails. -/
theorem compress_fits {s : State} {bytes : List Byte} (hc : s.codeValid = true) (hne : bytes ≠ [])
    (hfit : bytes.length ≤ s.cfgWcap.toNat) (hcoded : ∀ b ∈ recoded bytes, s.readCode b ≠ [])
    (hsize : (((recoded bytes).flatMap s.readCode).length + 7) / 8 ≤ s.cfgWcap.toNat) :
    ∃ t, compress bytes s = .done t (assembleContainer (containerFor s.readCode bytes)) := by
  have hfwd := exec_bwtFwd_nonempty (s := { s with w := bytes }) hne
  have hpack := exec_bitPack_fits (s := { s with
    w := recoded bytes, start := BitVec.ofNat 64 (startIndex (suffixSort bytes)), status := 0#8, cmd := none })
    hc hcoded hsize
  rw [compress, hostPut_putW _ hfit, hostIssue_success hfwd rfl, hostIssue_mtfEnc]
  exact ⟨_, hostIssue_success hpack rfl⟩

/-! ## `decompress` -/

/-- The block when `decompress` has put the fields of a container into it. -/
def loaded (c : Container) (s : State) : State :=
  { s with w := c.payload, start := c.bwtStartIndex, dlen := c.decodedLength }

theorem hostPut_putDlen {α : Type} (v : Long) (s : State) (next : State → ProcEnd α) :
    hostPut (.putDlen v.toNat) s next = next { s with dlen := v } := by
  have hrange : inRange (.putDlen v.toNat) s = true := decide_eq_true v.isLt
  rw [hostPut_accepted hrange, acceptAction, BitVec.ofNat_toNat, BitVec.setWidth_eq]

theorem hostPut_putStart {α : Type} (v : Long) (s : State) (next : State → ProcEnd α) :
    hostPut (.putStart v.toNat) s next = next { s with start := v } := by
  have hrange : inRange (.putStart v.toNat) s = true := decide_eq_true v.isLt
  rw [hostPut_accepted hrange, acceptAction, BitVec.ofNat_toNat, BitVec.setWidth_eq]

/-- Rule R215, when no command fails. -/
theorem decompress_assembleContainer {c : Container} {s : State} {symbols out : List Byte}
    (hpayload : c.payload.length ≤ s.cfgWcap.toNat)
    (hunpack : exec .bitUnpack (loaded c s) = .next { loaded c s with w := symbols, status := 0#8, cmd := none })
    (hinv : exec .bwtInv { loaded c s with w := mtfDecode symbols, status := 0#8, cmd := none } =
      .next { loaded c s with w := out, status := 0#8, cmd := none }) :
    ∃ u, decompress (assembleContainer c) s = .done u out := by
  refine ⟨{ loaded c s with w := out, status := 0#8, cmd := none }, ?_⟩
  simp only [decompress, parseContainer_assembleContainer, hostPut_putDlen, hostPut_putStart, hostPut_putW, hpayload]
  exact (hostIssue_success hunpack rfl).trans ((hostIssue_mtfDec _ _).trans (hostIssue_success hinv rfl))

/-! ## The round trip -/

theorem assembleContainer_length (c : Container) : (assembleContainer c).length = 16 + c.payload.length := by
  simp only [assembleContainer, List.length_append, le64_length]

/-- BWT.INV of what BWT.FWD leaves, on any block whose `W` and `START` hold it. -/
theorem exec_bwtInv_permutedBytes {s : State} {bytes : List Byte} (hne : bytes ≠ [])
    (hw : s.w = permutedBytes bytes (suffixSort bytes)) (hstart : s.start.toNat = startIndex (suffixSort bytes)) :
    exec .bwtInv s = .next { s with w := bytes, status := 0#8, cmd := none } := by
  have hlen : s.w.length = bytes.length := hw ▸ permutedBytes_length bytes
  refine exec_bwtInv_accepted ?_ ?_ ?_ ?_
  · exact List.ne_nil_of_length_pos (hlen ▸ List.length_pos_iff.mpr hne)
  · exact hstart ▸ one_le_startIndex hne
  · exact hstart ▸ hlen ▸ startIndex_le bytes
  · rw [hstart, hw, inverseBwt_permutedBytes]

/-- BIT.UNPACK of the container of a byte sequence, with a tree whose turns to the leaves are the codes. -/
theorem exec_bitUnpack_containerFor {s : State} {code : Byte → Bits} {bytes : List Byte} (hs : Inv s)
    (hv : s.treeValid = true) (hfit : bytes.length ≤ s.cfgWcap.toNat)
    (hpayload : (containerFor code bytes).payload.length ≤ s.cfgWcap.toNat)
    (hturns : ∀ b ∈ recoded bytes, LeadsToLeaf s.arena s.root (code b) b) :
    exec .bitUnpack (loaded (containerFor code bytes) s) =
      .next { loaded (containerFor code bytes) s with w := recoded bytes, status := 0#8, cmd := none } := by
  have hlen : (recoded bytes).length ≤ s.cfgWcap.toNat := (recoded_length bytes).trans_le hfit
  have hdlen : (loaded (containerFor code bytes) s).dlen.toNat = (recoded bytes).length := length_toNat hlen
  obtain ⟨padding, hbits⟩ := isPrefix_unpackBits_packBytes (bits := (recoded bytes).flatMap code)
    (m := (((recoded bytes).flatMap code).length + 7) / 8) (by omega)
  exact bitUnpackDecodesLeadingCodes _ (recoded bytes) code padding (hs.update hpayload hs.statusLegal) hv
    (hdlen.trans_le hlen) hdlen.symm hturns hbits.symm

/-- Settles O60: the codes are the turns to the leaves of the tree that both blocks hold, and then each command of `decompress`
undoes one of `compress`. -/
theorem pipelineRoundTrip : Obligations.PipelineRoundTrip := by
  intro s bytes hs hc hne hfit hcoded hsize
  obtain ⟨t, hcompress⟩ := compress_fits hc hne hfit hcoded hsize
  refine ⟨_, t, hcompress, fun s' hs' hv' harena hroot hfit' hcontainer => ?_⟩
  rw [assembleContainer_length, Nat.add_sub_cancel_left] at hcontainer
  refine decompress_assembleContainer hcontainer
    (exec_bitUnpack_containerFor hs' hv' hfit' hcontainer fun b hb => ?_)
    (exec_bwtInv_permutedBytes hne (mtfDecode_mtfEncode _) (toNat_startIndex hfit))
  rw [harena, hroot]
  exact hs.leadsToLeaf_readCode hc (hcoded b hb)

end Sys2Proof
end

-- The exceptions: O20 and O31.

section
/-! PROOF. An error changes `STATUS` and `BUSY` only (rules R71, R243), and when BWT.INV raises InvalidBwtInput (rules R108, R236). -/

namespace Sys2Proof

open Sys2Proof.Machine

/-- A command that ends has raised one of the error kinds, or its `STATUS` is 0. -/
theorem exec_raised_or_succeeded {i : Instr} {s t : State} (h : exec i s = .next t) :
    (∃ k, t = s.finish (errorCode k)) ∨ t.status = 0#8 := by
  cases i with
  | sysRst => exact .inr (Host.Outcome.next.inj h ▸ rfl)
  | bwtFwd => exact (execBwtFwd_cases h).imp_right fun ⟨_, ht⟩ => ht ▸ rfl
  | bwtInv => exact (execBwtInv_cases h).imp_right fun ⟨_, _, _, _, _, ht⟩ => ht ▸ rfl
  | mtfEnc => exact .inr (Host.Outcome.next.inj h ▸ rfl)
  | mtfDec => exact .inr (Host.Outcome.next.inj h ▸ rfl)
  | hufBuild => exact (execHufBuild_cases h).imp_right fun ⟨_, _, ht⟩ => ht ▸ rfl
  | hufGen => exact (execHufGen_cases h).imp_right fun ⟨_, _, _, ht⟩ => ht ▸ rfl
  | bitPack => exact (execBitPack_cases h).imp_right fun ⟨_, _, ht⟩ => ht ▸ rfl
  | bitUnpack => exact (execBitUnpack_cases h).imp_right fun ⟨_, _, _, _, ht⟩ => ht ▸ rfl

/-- Settles O20: a `STATUS` other than 0 is the code of an error that the command raised. -/
theorem failedCommandChangesStatusOnly : Obligations.FailedCommandChangesStatusOnly := by
  intro i s t h hstatus
  obtain ⟨k, rfl⟩ := (exec_raised_or_succeeded h).resolve_right hstatus
  exact ⟨rfl, (errorCode_range k).2⟩

section

variable {s : State} (hne : s.w ≠ [])

include hne

theorem exec_bwtInv_startOutside (h : s.start.toNat < 1 ∨ s.w.length < s.start.toNat) :
    exec .bwtInv s = .next { s with status := 6#8, cmd := none } :=
  (if_neg (mt List.length_eq_zero_iff.mp hne)).trans (if_pos h)

theorem exec_bwtInv_walkInvalid (hrange : ¬ (s.start.toNat < 1 ∨ s.w.length < s.start.toNat))
    (h : inverseBwt s.start.toNat s.w = none) :
    exec .bwtInv s = .next { s with status := 6#8, cmd := none } := by
  refine (if_neg (mt List.length_eq_zero_iff.mp hne)).trans ((if_neg hrange).trans ?_)
  rw [h]
  rfl

end

/-- Settles O31: the range of `START` is tested before the walk, and both tests raise the same error. -/
theorem bwtInvRejectsInvalidInput : Obligations.BwtInvRejectsInvalidInput := by
  intro s hne h
  by_cases hrange : s.start.toNat < 1 ∨ s.w.length < s.start.toNat
  · exact exec_bwtInv_startOutside hne hrange
  · exact exec_bwtInv_walkInvalid hne hrange ((or_assoc.mpr h).resolve_left hrange)

end Sys2Proof
end

-- Reset and hazards: O2, O5 and O19.

section
/-! PROOF. A hardware reset during a command, and that the block never hangs: every command and every step answers a next state
(rules R263, R278). -/

namespace Sys2Proof

open Sys2Proof.Machine

/-- Settles O2: the step is `resetBlock` whatever is in `CMD`, and it keeps the rest of `pending` and the replies. -/
theorem hardwareResetAbandonsCommand : Obligations.HardwareResetAbandonsCommand :=
  fun s rest h => ⟨_, step_hardwareReset h, hasResetValues_resetBlock { s with pending := rest }, rfl, rfl⟩

/-! ## The walk of BIT.UNPACK -/

section

variable {n : Nat} {arena : List Node} {root : NodeIx} (h : TreeOver n arena root)

include h

theorem TreeOver.exists_node {i : NodeIx} (hi : i.toNat ≤ root.toNat) : ∃ node, readSlot arena i = some node := by
  obtain ⟨hn, hlen, hroot⟩ := h.sizes
  exact ⟨_, List.getElem?_eq_getElem (by omega)⟩

/-- On a tree the walk stands on an internal node before every turn: a turn leads to a node, and from a leaf the walk goes back to
the root (rules R40, R183). So it ends with its symbols or with an error. -/
theorem TreeOver.unpackWalk_done_or_failed {bits : Bits} {cur l r : NodeIx} {need : Nat}
    (hcur : readSlot arena cur = some (.internal l r)) :
    (∃ out, unpackWalk arena root bits cur need = .done out) ∨ ∃ k, unpackWalk arena root bits cur need = .failed k := by
  induction bits generalizing cur l r need with
  | nil =>
    cases need with
    | zero => exact .inl ⟨_, rfl⟩
    | succ need => exact .inr ⟨_, rfl⟩
  | cons b rest ih =>
    cases need with
    | zero => exact .inl ⟨_, rfl⟩
    | succ need =>
      have hturn : follow arena cur [b] = some (if b then r else l) := follow_singleton.mpr ⟨l, r, hcur, rfl⟩
      obtain ⟨-, hle, hlt⟩ := h.child_lt hturn
      obtain ⟨node, hnode⟩ := h.exists_node (hlt.le.trans hle)
      cases node with
      | leaf sym =>
        rw [unpackWalk_turn_to_leaf rest need hturn hnode]
        obtain ⟨_, _, hroot⟩ := h.root_internal
        rcases ih (need := need) hroot with ⟨out, hout⟩ | ⟨k, hk⟩
        · exact .inl ⟨sym :: out, by rw [hout]; rfl⟩
        · exact .inr ⟨k, by rw [hk]; rfl⟩
      | internal _ _ =>
        rw [unpackWalk_turn_to_internal rest need hturn hnode]
        exact ih hnode

end

/-! ## The commands with checks -/

theorem exec_bwtFwd_completes (s : State) : ∃ t, exec .bwtFwd s = .next t := by
  by_cases hw : s.w = []
  · exact ⟨_, exec_bwtFwd_empty hw⟩
  · exact ⟨_, exec_bwtFwd_nonempty hw⟩

theorem exec_bwtInv_completes (s : State) : ∃ t, exec .bwtInv s = .next t := by
  by_cases hw : s.w = []
  · exact ⟨_, exec_bwtInv_empty hw⟩
  · by_cases hrange : s.start.toNat < 1 ∨ s.w.length < s.start.toNat
    · exact ⟨_, exec_bwtInv_startOutside hw hrange⟩
    · cases hwalk : inverseBwt s.start.toNat s.w with
      | none => exact ⟨_, exec_bwtInv_walkInvalid hw hrange hwalk⟩
      | some out => exact ⟨_, exec_bwtInv_accepted hw (by omega) (by omega) hwalk⟩

theorem exec_hufBuild_completes (s : State) : ∃ t, exec .hufBuild s = .next t := by
  by_cases hn : 2 ≤ (countedSymbols s).length
  · rcases Nat.lt_or_ge s.cfgAcap.toNat (2 * (countedSymbols s).length - 1) with hlarge | hfit
    · exact ⟨_, exec_hufBuild_tooMany hn hlarge⟩
    · exact ⟨_, exec_hufBuild_fits hn hfit⟩
  · obtain hnone | hone : (countedSymbols s).length = 0 ∨ (countedSymbols s).length = 1 := by omega
    · exact ⟨_, exec_hufBuild_empty hnone⟩
    · exact ⟨_, exec_hufBuild_one hone⟩

theorem exec_bitPack_completes (s : State) : ∃ t, exec .bitPack s = .next t := by
  cases hv : s.codeValid with
  | false => exact ⟨_, exec_bitPack_notReady hv⟩
  | true =>
    by_cases hw : ∃ b ∈ s.w, s.readCode b = []
    · exact ⟨_, exec_bitPack_uncoded hv hw⟩
    · have hcoded : ∀ b ∈ s.w, s.readCode b ≠ [] := fun b hb hnone => hw ⟨b, hb, hnone⟩
      rcases Nat.lt_or_ge s.cfgWcap.toNat (((s.w.flatMap s.readCode).length + 7) / 8) with hlong | hfit
      · exact ⟨_, exec_bitPack_tooLong hv hcoded hlong⟩
      · exact ⟨_, exec_bitPack_fits hv hcoded hfit⟩

/-! ## Every command, every word and every step -/

section

variable {s : State} (hs : Inv s)

include hs

theorem Inv.exec_hufGen_completes : ∃ t, Machine.exec .hufGen s = .next t := by
  cases hv : s.treeValid with
  | false => exact ⟨_, hufGenNeedsTree s hv⟩
  | true =>
    obtain ⟨n, htree⟩ := hs.treePresent hv
    obtain ⟨code, hcode⟩ := htree.exists_codeTable
    exact ⟨_, exec_hufGen_tree hv hcode⟩

theorem Inv.exec_bitUnpack_completes : ∃ t, Machine.exec .bitUnpack s = .next t := by
  cases hv : s.treeValid with
  | false => exact ⟨_, exec_bitUnpack_notReady hv⟩
  | true =>
    rcases Nat.lt_or_ge s.cfgWcap.toNat s.dlen.toNat with hlong | hfit
    · exact ⟨_, exec_bitUnpack_tooLong hv hlong⟩
    · obtain ⟨n, htree⟩ := hs.treePresent hv
      obtain ⟨_, _, hroot⟩ := htree.root_internal
      rcases htree.unpackWalk_done_or_failed hroot with ⟨out, hout⟩ | ⟨k, hk⟩
      · exact ⟨_, exec_bitUnpack_done hv hfit hout⟩
      · exact ⟨_, exec_bitUnpack_failed hv hfit hk⟩

/-- Only HUF.GEN and BIT.UNPACK can stop, and only on a tree that the invariant rules out. -/
theorem Inv.exec_completes (i : Instr) : ∃ t, Machine.exec i s = .next t := by
  cases i with
  | sysRst => exact ⟨_, execSysRst_eq s⟩
  | bwtFwd => exact exec_bwtFwd_completes s
  | bwtInv => exact exec_bwtInv_completes s
  | mtfEnc => exact ⟨_, execMtfEnc_eq s⟩
  | mtfDec => exact ⟨_, execMtfDec_eq s⟩
  | hufBuild => exact exec_hufBuild_completes s
  | hufGen => exact hs.exec_hufGen_completes
  | bitPack => exact exec_bitPack_completes s
  | bitUnpack => exact hs.exec_bitUnpack_completes

theorem Inv.runWord_completes (word : Byte) : ∃ t, runWord word s = .next t := by
  cases hd : decodeWord word with
  | ok i => exact runWord_command s hd ▸ hs.exec_completes i
  | error e => exact ⟨_, runWord_illegal s hd⟩

end

/-- Settles O19: a command that completes leaves `CMD` empty, and so `BUSY` is 0. -/
theorem everyCommandCompletes : Obligations.EveryCommandCompletes := by
  intro i s hs
  obtain ⟨t, ht⟩ := hs.exec_completes i
  obtain ⟨-, hcmd⟩ := runWord_pending_cmd ((runWord_encodeWord i s).trans ht)
  exact ⟨t, ht, by simp [State.busy, hcmd]⟩

/-- Settles O5: a reset, an idle block and a host action always go on, and the word in `CMD` completes. -/
theorem stepAlwaysGoesOn : Obligations.StepAlwaysGoesOn := by
  intro s hs
  by_cases hreset : ∃ rest, s.pending = .hardwareReset :: rest
  · obtain ⟨rest, hp⟩ := hreset
    exact ⟨_, step_hardwareReset hp⟩
  · have hn : NoReset s := fun rest hp => hreset ⟨rest, hp⟩
    cases hc : s.cmd with
    | some word =>
      obtain ⟨t, ht⟩ := hs.runWord_completes word
      exact ⟨_, (step_command hn hc).trans (respond_next.mpr ⟨t, ht, rfl⟩)⟩
    | none =>
      cases hp : s.pending with
      | nil => exact ⟨s, step_idle hp hc⟩
      | cons a rest => exact ⟨_, step_action hp (fun ha => hn rest (ha ▸ hp)) hc⟩

end Sys2Proof
end
